-- ==== Sys2Proof/Word.lean ====
section
/-! DEFINITION. The two word sizes of the block (00_scope.md R8): a byte is 8 bits, an operand or a field
has at most 16 bits. -/

namespace Sys2Proof

/-- One byte of the input buffer (00_scope.md R8). -/
abbrev Byte := BitVec 8

/-- A 16-bit field: a displacement, a direct address or an immediate (00_scope.md R8, 10_state.md R35). -/
abbrev Word := BitVec 16

end Sys2Proof
end

