-- ==== Sys2Proof/Syntax.lean ====
section
/-! DEFINITION. Names and values the decoder produces (10_state.md R30, R32 to R35) and the one inductive of
instructions, a constructor for each row of spec/opcode_table.json. Fields that would be Lean keywords are
renamed: the spec's `class` is `cls`. -/

namespace Sys2Proof

/-- The seven encoding variants of MOV, in the order of their 3-bit codes (10_state.md R34). -/
inductive OpcodeClass where
  | regMemToFromReg
  | immediateToRegMem
  | immediateToReg
  | memToAcc
  | accToMem
  | regMemToSegReg
  | segRegToRegMem
  deriving DecidableEq, Repr

/-- The 16 register identifiers of 10_state.md R30. They are names inside records: no storage stands behind
them (R29). -/
inductive Reg where
  | al | cl | dl | bl | ah | ch | dh | bh
  | ax | cx | dx | bx | sp | bp | si | di
  deriving DecidableEq, Repr

/-- The eight effective-address bases of 10_state.md R32. -/
inductive EffectiveAddressBase where
  | bxSi | bxDi | bpSi | bpDi | si | di | bp | bx
  deriving DecidableEq, Repr

/-- The decoded mod field (10_state.md R33). -/
inductive ModField where
  | noDisplacement
  | disp8
  | disp16
  | registerMode
  deriving DecidableEq, Repr

/-- `disp_width` of a memory operand: 0, 8 or 16 bits (10_state.md R35). -/
inductive DispWidth where
  | w0
  | w8
  | w16
  deriving DecidableEq, Repr

/-- `width` of an immediate: 8 or 16 bits (10_state.md R35). -/
inductive ImmWidth where
  | w8
  | w16
  deriving DecidableEq, Repr

/-- `size_marker` of an immediate (10_state.md R35). -/
inductive SizeMarker where
  | none
  | byte
  | word
  deriving DecidableEq, Repr

/-- The operand `Mem` of 10_state.md R35. `base = none` is the direct address. -/
structure MemOperand where
  base : Option EffectiveAddressBase
  dispWidth : DispWidth
  dispRaw : Word
  isDirectAddress : Bool
  deriving DecidableEq, Repr

/-- The operand `Imm` of 10_state.md R35. -/
structure Immediate where
  width : ImmWidth
  raw : Word
  sizeMarker : SizeMarker
  deriving DecidableEq, Repr

/-- An operand of a decode record (10_state.md R35). -/
inductive Operand where
  | reg (r : Reg)
  | mem (m : MemOperand)
  | imm (i : Immediate)
  deriving DecidableEq, Repr

/-- What the mod and rm fields, with the displacement bytes after them, can name: a register or a memory
operand (40_decode_step.md R97). -/
inductive RmOperand where
  | reg (r : Reg)
  | mem (m : MemOperand)
  deriving DecidableEq, Repr

/-- The r/m operand as an operand of a record. -/
def RmOperand.toOperand : RmOperand → Operand
  | .reg r => .reg r
  | .mem m => .mem m

/-- The instructions, one constructor for each class of 30_encoding.md R64 (a row of spec/opcode_table.json).
`d` is DirectionFlag and `w` is WordFlag (R73, R74). The ignored bits `x` of an F-IRM mod-reg-rm byte (R62,
R83) are kept, so that an instruction stands for one byte string; no meaning reads them: DESIGN CHOICE (log entry
12, safe). The four unsupported classes hold what their opcode byte holds: the block reads no further byte of them
(43_mov_unsupported.md R150). -/
inductive Instr where
  /-- MOV_RegMemToFromReg, format F-RM (30_encoding.md R61). -/
  | regMemToFromReg (d w : Bool) (reg : Reg) (rm : RmOperand)
  /-- MOV_ImmediateToRegMem, format F-IRM (30_encoding.md R62). -/
  | immediateToRegMem (w : Bool) (x : BitVec 3) (rm : RmOperand) (imm : Word)
  /-- MOV_ImmediateToReg, format F-IR (30_encoding.md R63). -/
  | immediateToReg (w : Bool) (reg : Reg) (imm : Word)
  /-- MOV_MemToAcc__unsupported, format F-ACC (30_encoding.md R69). -/
  | memToAcc (w : Bool)
  /-- MOV_AccToMem__unsupported, format F-ACC (30_encoding.md R69). -/
  | accToMem (w : Bool)
  /-- MOV_RegMemToSegReg__unsupported, format F-SEG (30_encoding.md R70). -/
  | regMemToSegReg
  /-- MOV_SegRegToRegMem__unsupported, format F-SEG (30_encoding.md R70). -/
  | segRegToRegMem
  deriving DecidableEq, Repr

/-- The class of an instruction (10_state.md R34). -/
def Instr.cls : Instr → OpcodeClass
  | .regMemToFromReg _ _ _ _ => .regMemToFromReg
  | .immediateToRegMem _ _ _ _ => .immediateToRegMem
  | .immediateToReg _ _ _ => .immediateToReg
  | .memToAcc _ => .memToAcc
  | .accToMem _ => .accToMem
  | .regMemToSegReg => .regMemToSegReg
  | .segRegToRegMem => .segRegToRegMem

/-- The four classes that are classified and not decoded (30_encoding.md R84). -/
def OpcodeClass.unsupported : OpcodeClass → Bool
  | .regMemToFromReg => false
  | .immediateToRegMem => false
  | .immediateToReg => false
  | .memToAcc => true
  | .accToMem => true
  | .regMemToSegReg => true
  | .segRegToRegMem => true

end Sys2Proof
end

