-- ==== Sys2Proof/Machine/Operands.lean ====
section
/-! DEFINITION. The lookup tables and operand forms shared by decoder, encoder and meanings: RegTable, EATable,
ModField and DispBytes, their inverses, field byte order, and the value of a displacement. Every operand form
the spec gives stands here; the block has no flags, so there is no flag computation (10_state.md R28). -/

namespace Sys2Proof

/-- `RegTable(w, code)` (10_state.md R30): a table lookup keyed by WordFlag, the list position being the code. -/
def regTable (w : Bool) (code : BitVec 3) : Reg :=
  match w, (code.toFin : Fin 8) with
  | false, 0 => .al
  | false, 1 => .cl
  | false, 2 => .dl
  | false, 3 => .bl
  | false, 4 => .ah
  | false, 5 => .ch
  | false, 6 => .dh
  | false, 7 => .bh
  | true, 0 => .ax
  | true, 1 => .cx
  | true, 2 => .dx
  | true, 3 => .bx
  | true, 4 => .sp
  | true, 5 => .bp
  | true, 6 => .si
  | true, 7 => .di

/-- The code that `regTable` reads as this register (10_state.md R30). -/
def regCode : Reg → BitVec 3
  | .al | .ax => 0b000#3
  | .cl | .cx => 0b001#3
  | .dl | .dx => 0b010#3
  | .bl | .bx => 0b011#3
  | .ah | .sp => 0b100#3
  | .ch | .bp => 0b101#3
  | .dh | .si => 0b110#3
  | .bh | .di => 0b111#3

/-- `EATable(code)` (10_state.md R32). -/
def eaTable (code : BitVec 3) : EffectiveAddressBase :=
  match (code.toFin : Fin 8) with
  | 0 => .bxSi
  | 1 => .bxDi
  | 2 => .bpSi
  | 3 => .bpDi
  | 4 => .si
  | 5 => .di
  | 6 => .bp
  | 7 => .bx

/-- The rm code that `eaTable` reads as this base (10_state.md R32). -/
def eaCode : EffectiveAddressBase → BitVec 3
  | .bxSi => 0b000#3
  | .bxDi => 0b001#3
  | .bpSi => 0b010#3
  | .bpDi => 0b011#3
  | .si => 0b100#3
  | .di => 0b101#3
  | .bp => 0b110#3
  | .bx => 0b111#3

/-- The ModField of a 2-bit mod value (10_state.md R33). -/
def modField (mod : BitVec 2) : ModField :=
  match (mod.toFin : Fin 4) with
  | 0 => .noDisplacement
  | 1 => .disp8
  | 2 => .disp16
  | 3 => .registerMode

/-- `DispBytes(mod, rm)`, the displacement or direct-address bytes after a mod-reg-rm byte (30_encoding.md R72). -/
def dispBytes (mod : BitVec 2) (rm : BitVec 3) : Nat :=
  match modField mod with
  | .registerMode => 0
  | .noDisplacement => if rm = 0b110#3 then 2 else 0
  | .disp8 => 1
  | .disp16 => 2

/-- Two bytes joined little-endian, the low byte at the lower address (20_memory.md R47, R49). -/
def joinLE (lo hi : Byte) : Word := hi ++ lo

/-- A byte read as a field, `zext_16` (00_scope.md R13, 30_encoding.md R76). -/
def zext16 (b : Byte) : Word := b.zeroExtend 16

/-- The low byte of a field, at the lower address (20_memory.md R47). -/
def loByte (v : Word) : Byte := v.extractLsb' 0 8

/-- The high byte of a field, at the higher address (20_memory.md R47). -/
def hiByte (v : Word) : Byte := v.extractLsb' 8 8

/-- How many bytes a displacement of this width takes (10_state.md R33). -/
def DispWidth.bytes : DispWidth → Nat
  | .w0 => 0
  | .w8 => 1
  | .w16 => 2

/-- How many displacement or direct-address bytes an r/m operand takes (40_decode_step.md R97: the n that
`DecodeRM` returns). -/
def RmOperand.bytes : RmOperand → Nat
  | .reg _ => 0
  | .mem m => m.dispWidth.bytes

/-- How many bytes an immediate takes: 1 if w = 0, 2 if w = 1 (30_encoding.md R78). -/
def immBytes (w : Bool) : Nat := if w then 2 else 1

/-- The width of an immediate, 8 · k bits (30_encoding.md R78). -/
def immWidth (w : Bool) : ImmWidth := if w then .w16 else .w8

/-- The size marker of an ImmediateToRegMem record: always present (42_mov_immediate.md R134). -/
def markerOf (w : Bool) : SizeMarker := if w then .word else .byte

/-- The memory operand of a direct address (40_decode_step.md R99). -/
def directAddress (a : Word) : MemOperand :=
  { base := none, dispWidth := .w16, dispRaw := a, isDirectAddress := true }

/-- The memory operand of a base with a displacement (40_decode_step.md R100 to R102). -/
def based (b : EffectiveAddressBase) (width : DispWidth) (raw : Word) : MemOperand :=
  { base := some b, dispWidth := width, dispRaw := raw, isDirectAddress := false }

/-- `DispValue(m)` (40_decode_step.md R103): a direct address is never signed; any other displacement is
two's-complement of its own width when `DISP_SIGNED` holds. -/
def dispValue (dispSigned : Bool) (m : MemOperand) : Int :=
  if m.isDirectAddress then m.dispRaw.toNat
  else
    match m.dispWidth with
    | .w0 => 0
    | .w8 => if dispSigned then (loByte m.dispRaw).toInt else m.dispRaw.toNat
    | .w16 => if dispSigned then m.dispRaw.toInt else m.dispRaw.toNat

/-- The operand of an immediate field (30_encoding.md R78, R79). -/
def immOperand (w : Bool) (imm : Word) (marker : SizeMarker) : Operand :=
  .imm { width := immWidth w, raw := imm, sizeMarker := marker }

/-- `total_length` of an instruction (30_encoding.md R80). For the four unsupported classes it is the one
byte the step reads; no record carries it (43_mov_unsupported.md R150). -/
def Instr.totalLength : Instr → Nat
  | .regMemToFromReg _ _ _ rm => 2 + rm.bytes
  | .immediateToRegMem w _ rm _ => 2 + rm.bytes + immBytes w
  | .immediateToReg w _ _ => 1 + immBytes w
  | .memToAcc _ => 1
  | .accToMem _ => 1
  | .regMemToSegReg => 1
  | .segRegToRegMem => 1

end Sys2Proof
end

