-- ==== Sys2Proof/WellFormed.lean ====
section
/-! DEFINITION. Which terms of Syntax stand for something the block can read or emit: the invariants of
10_state.md R35, the size agreement of 41_mov_regmem_reg.md R120, and that the one memory operand with no
encoding (40_decode_step.md R99: mod = 00 with rm = 110 is the direct address, never [BP]) is not written. -/

namespace Sys2Proof

/-- Whether a register is in the word column of 10_state.md R30. -/
def Reg.isWord : Reg → Bool
  | .al | .cl | .dl | .bl | .ah | .ch | .dh | .bh => false
  | .ax | .cx | .dx | .bx | .sp | .bp | .si | .di => true

/-- `is_direct_address = true` exactly when `base = None` (10_state.md R35). -/
def MemOperand.directHasNoBase (m : MemOperand) : Bool :=
  m.isDirectAddress == m.base.isNone

/-- A direct address has `disp_width = 16` (10_state.md R35). -/
def MemOperand.directIs16 (m : MemOperand) : Bool :=
  !m.isDirectAddress || decide (m.dispWidth = .w16)

/-- `disp_raw` is the raw displacement zero-extended to 16 bits, and 0 when there is none (10_state.md R35). -/
def MemOperand.dispFits (m : MemOperand) : Bool :=
  match m.dispWidth with
  | .w0 => decide (m.dispRaw = 0)
  | .w8 => decide (m.dispRaw.toNat < 256)
  | .w16 => true

/-- The invariants of a memory operand (10_state.md R35). -/
def MemOperand.wf (m : MemOperand) : Bool :=
  m.directHasNoBase && m.directIs16 && m.dispFits

/-- No encoding names BP with no displacement: mod = 00 with rm = 110 is a direct address
(40_decode_step.md R99). -/
def MemOperand.notBareBp (m : MemOperand) : Bool :=
  !(decide (m.base = some .bp) && decide (m.dispWidth = .w0))

/-- `raw` is the raw immediate zero-extended to 16 bits (10_state.md R35). -/
def Immediate.wf (i : Immediate) : Bool :=
  match i.width with
  | .w8 => decide (i.raw.toNat < 256)
  | .w16 => true

/-- The invariants of an operand of a record (10_state.md R35). -/
def Operand.wf : Operand → Bool
  | .reg _ => true
  | .mem m => m.wf && m.notBareBp
  | .imm i => i.wf

/-- An r/m operand that some mod, rm and displacement bytes name when WordFlag is `w`: a register is of the
instruction's size (40_decode_step.md R98). -/
def RmOperand.wf (w : Bool) : RmOperand → Bool
  | .reg r => r.isWord == w
  | .mem m => m.wf && m.notBareBp

/-- An immediate of the size WordFlag selects (30_encoding.md R78). -/
def immFits (w : Bool) (imm : Word) : Bool :=
  w || decide (imm.toNat < 256)

/-- An instruction that the block's encodings can write: every register, displacement and immediate has the
size WordFlag and the displacement width give it. -/
def Instr.wf : Instr → Bool
  | .regMemToFromReg _ w reg rm => reg.isWord == w && rm.wf w
  | .immediateToRegMem w _ rm imm => rm.wf w && immFits w imm
  | .immediateToReg w reg imm => reg.isWord == w && immFits w imm
  | .memToAcc _ => true
  | .accToMem _ => true
  | .regMemToSegReg => true
  | .segRegToRegMem => true

end Sys2Proof
end

