-- ==== Sys2Proof/Decode.lean ====
section
/-! DEFINITION. The opcode classifier, the mod-reg-rm parser and the displacement and immediate extractor
(30_encoding.md), as a total decoder on a list of bytes: the bytes of the buffer from the cursor on, so that the
list running out is a field that would pass LEN. After it the encoder, written from the same tables. -/

namespace Sys2Proof

/-- One row of 30_encoding.md R64: the byte matches when it and `mask` give `expected` (the spec's `match`). -/
structure OpcodePattern where
  cls : OpcodeClass
  mask : Byte
  expected : Byte
  deriving DecidableEq, Repr

/-- The table of 30_encoding.md R64, row by row. -/
def opcodePatterns : List OpcodePattern :=
  [ { cls := .regMemToFromReg,   mask := 0b11111100#8, expected := 0b10001000#8 },
    { cls := .immediateToRegMem, mask := 0b11111110#8, expected := 0b11000110#8 },
    { cls := .immediateToReg,    mask := 0b11110000#8, expected := 0b10110000#8 },
    { cls := .memToAcc,          mask := 0b11111110#8, expected := 0b10100000#8 },
    { cls := .accToMem,          mask := 0b11111110#8, expected := 0b10100010#8 },
    { cls := .regMemToSegReg,    mask := 0b11111111#8, expected := 0b10001110#8 },
    { cls := .segRegToRegMem,    mask := 0b11111111#8, expected := 0b10001100#8 } ]

/-- Whether an opcode byte satisfies a pattern (30_encoding.md R65). -/
def patternMatches (p : OpcodePattern) (b0 : Byte) : Bool :=
  decide (b0 &&& p.mask = p.expected)

/-- `Classify(b0)` (30_encoding.md R65). The patterns exclude each other, so the order of the search does not
matter (R66). -/
def classify (b0 : Byte) : Option OpcodeClass :=
  (opcodePatterns.find? (fun p => patternMatches p b0)).map (·.cls)

/-- mod, bits 7..6 of a mod-reg-rm byte (30_encoding.md R71). -/
def modBits (b1 : Byte) : BitVec 2 := b1.extractLsb' 6 2

/-- reg, bits 5..3 of a mod-reg-rm byte (30_encoding.md R71). -/
def regBits (b1 : Byte) : BitVec 3 := b1.extractLsb' 3 3

/-- rm, bits 2..0 of a mod-reg-rm byte, and the register code of an F-IR opcode byte (30_encoding.md R71, R75). -/
def rmBits (b1 : Byte) : BitVec 3 := b1.extractLsb' 0 3

/-- WordFlag of formats F-RM and F-IRM, bit 0 (30_encoding.md R73). -/
def wordFlag (b0 : Byte) : Bool := b0.getLsbD 0

/-- WordFlag of format F-IR, bit 3 (30_encoding.md R73). -/
def wordFlagIR (b0 : Byte) : Bool := b0.getLsbD 3

/-- DirectionFlag of format F-RM, bit 1 (30_encoding.md R74). -/
def directionFlag (b0 : Byte) : Bool := b0.getLsbD 1

/-- What a decode ends in when it gives no instruction. -/
inductive DecodeFailure where
  /-- There is no opcode byte: the cursor is at LEN. -/
  | noOpcodeByte
  /-- The opcode byte matches no pattern (60_exceptions.md R192). -/
  | unrecognizedOpcode (b0 : Byte)
  /-- A field of a supported class would be read past LEN (60_exceptions.md R194). -/
  | truncatedInstruction (b0 : Byte) (c : OpcodeClass)
  deriving DecidableEq, Repr

/-- The decoder's answer: an instruction with the bytes it did not read, or the reason there is none. -/
inductive DecodeResult where
  | instr (i : Instr) (rest : List Byte)
  | failure (f : DecodeFailure)
  deriving DecidableEq, Repr

/-- `MemRead(q, 1)`, zero-extended: one byte off the front, none when it lies past LEN (20_memory.md R47, R48). -/
def takeByte : List Byte → Option (Word × List Byte)
  | [] => none
  | b :: rest => some (zext16 b, rest)

/-- `MemRead(q, 2)`: two bytes off the front, little-endian. A field with only its low byte in the buffer is
not read at all (20_memory.md R47, R48). -/
def takeWord : List Byte → Option (Word × List Byte)
  | lo :: hi :: rest => some (joinLE lo hi, rest)
  | _ => none

/-- The immediate field: 1 byte if w = 0, 2 bytes if w = 1 (30_encoding.md R78). -/
def takeImm (w : Bool) (bs : List Byte) : Option (Word × List Byte) :=
  if w then takeWord bs else takeByte bs

/-- `DecodeRM` (40_decode_step.md R97): `bs` are the bytes after the mod-reg-rm byte. -/
def decodeRM (mod : BitVec 2) (rm : BitVec 3) (w : Bool) (bs : List Byte) :
    Option (RmOperand × List Byte) :=
  match modField mod with
  | .registerMode => some (.reg (regTable w rm), bs)
  | .noDisplacement =>
    if rm = 0b110#3 then
      (takeWord bs).map fun (a, rest) => (.mem (directAddress a), rest)
    else
      some (.mem (based (eaTable rm) .w0 0), bs)
  | .disp8 => (takeByte bs).map fun (v, rest) => (.mem (based (eaTable rm) .w8 v), rest)
  | .disp16 => (takeWord bs).map fun (v, rest) => (.mem (based (eaTable rm) .w16 v), rest)

/-- Format F-RM after its opcode byte (30_encoding.md R61, 41_mov_regmem_reg.md R122). -/
def decodeRegMem (b0 : Byte) : List Byte → Option (Instr × List Byte)
  | [] => none
  | b1 :: bs =>
    let w := wordFlag b0
    (decodeRM (modBits b1) (rmBits b1) w bs).map fun (rm, rest) =>
      (.regMemToFromReg (directionFlag b0) w (regTable w (regBits b1)) rm, rest)

/-- Format F-IRM after its opcode byte (30_encoding.md R62, 42_mov_immediate.md R132): the immediate follows
the displacement. -/
def decodeImmRegMem (b0 : Byte) : List Byte → Option (Instr × List Byte)
  | [] => none
  | b1 :: bs =>
    let w := wordFlag b0
    (decodeRM (modBits b1) (rmBits b1) w bs).bind fun (rm, bs') =>
      (takeImm w bs').map fun (imm, rest) => (.immediateToRegMem w (regBits b1) rm imm, rest)

/-- Format F-IR after its opcode byte (30_encoding.md R63, 42_mov_immediate.md R142). -/
def decodeImmReg (b0 : Byte) (bs : List Byte) : Option (Instr × List Byte) :=
  let w := wordFlagIR b0
  (takeImm w bs).map fun (imm, rest) => (.immediateToReg w (regTable w (rmBits b0)) imm, rest)

/-- The answer of a supported class's field reader: truncated when a field did not fit (60_exceptions.md R194). -/
def orTruncated (b0 : Byte) (c : OpcodeClass) : Option (Instr × List Byte) → DecodeResult
  | some (i, rest) => .instr i rest
  | none => .failure (.truncatedInstruction b0 c)

/-- The decoder (40_decode_step.md R93): classify the opcode byte, then the class's own reader. An unsupported
class is an instruction of its opcode byte alone: nothing after it is read (43_mov_unsupported.md R150). -/
def decode : List Byte → DecodeResult
  | [] => .failure .noOpcodeByte
  | b0 :: bs =>
    match classify b0 with
    | none => .failure (.unrecognizedOpcode b0)
    | some .regMemToFromReg => orTruncated b0 .regMemToFromReg (decodeRegMem b0 bs)
    | some .immediateToRegMem => orTruncated b0 .immediateToRegMem (decodeImmRegMem b0 bs)
    | some .immediateToReg => orTruncated b0 .immediateToReg (decodeImmReg b0 bs)
    | some .memToAcc => .instr (.memToAcc (wordFlag b0)) bs
    | some .accToMem => .instr (.accToMem (wordFlag b0)) bs
    | some .regMemToSegReg => .instr .regMemToSegReg bs
    | some .segRegToRegMem => .instr .segRegToRegMem bs

/-- The opcode byte of an instruction, from the patterns of 30_encoding.md R61 to R63, R69 and R70. -/
def opcodeByte : Instr → Byte
  | .regMemToFromReg d w _ _ => 0b100010#6 ++ BitVec.ofBool d ++ BitVec.ofBool w
  | .immediateToRegMem w _ _ _ => 0b1100011#7 ++ BitVec.ofBool w
  | .immediateToReg w reg _ => 0b1011#4 ++ BitVec.ofBool w ++ regCode reg
  | .memToAcc w => 0b1010000#7 ++ BitVec.ofBool w
  | .accToMem w => 0b1010001#7 ++ BitVec.ofBool w
  | .regMemToSegReg => 0b10001110#8
  | .segRegToRegMem => 0b10001100#8

/-- The mod and rm fields of an r/m operand (10_state.md R32, R33; 40_decode_step.md R97). -/
def rmFields : RmOperand → BitVec 2 × BitVec 3
  | .reg r => (0b11#2, regCode r)
  | .mem m =>
    match m.base, m.dispWidth with
    | none, _ => (0b00#2, 0b110#3)
    | some b, .w0 => (0b00#2, eaCode b)
    | some b, .w8 => (0b01#2, eaCode b)
    | some b, .w16 => (0b10#2, eaCode b)

/-- The displacement or direct-address bytes of an r/m operand, low byte first (30_encoding.md R76, R77). -/
def encodeDisp : RmOperand → List Byte
  | .reg _ => []
  | .mem m =>
    match m.dispWidth with
    | .w0 => []
    | .w8 => [loByte m.dispRaw]
    | .w16 => [loByte m.dispRaw, hiByte m.dispRaw]

/-- The immediate bytes, low byte first (30_encoding.md R78). -/
def encodeImm (w : Bool) (imm : Word) : List Byte :=
  if w then [loByte imm, hiByte imm] else [loByte imm]

/-- A mod-reg-rm byte and the bytes of its r/m operand (30_encoding.md R71, R72). -/
def encodeModRegRm (reg : BitVec 3) (rm : RmOperand) : List Byte :=
  ((rmFields rm).1 ++ reg ++ (rmFields rm).2) :: encodeDisp rm

/-- The bytes of an instruction, first byte first (30_encoding.md R60). -/
def encode (i : Instr) : List Byte :=
  opcodeByte i ::
    match i with
    | .regMemToFromReg _ _ reg rm => encodeModRegRm (regCode reg) rm
    | .immediateToRegMem w x rm imm => encodeModRegRm x rm ++ encodeImm w imm
    | .immediateToReg w _ imm => encodeImm w imm
    | .memToAcc _ => []
    | .accToMem _ => []
    | .regMemToSegReg => []
    | .segRegToRegMem => []

/-- The longest instruction in bytes (00_scope.md R11). -/
def maxInstrBytes : Nat := 6

/-- The first `n` bytes of a number, least significant byte first: how a table word lies in the buffer
(20_memory.md R49, R59: the first byte of an instruction at the lowest address). -/
def bytesLE : Nat → Nat → List Byte
  | 0, _ => []
  | n + 1, v => BitVec.ofNat 8 v :: bytesLE n (v / 256)

/-- The bytes of a table word of `nbits` bits, with zeros above it up to the longest instruction. -/
def tableWordBytes (nbits w : Nat) : List Byte :=
  bytesLE maxInstrBytes (w % 2 ^ nbits)

/-- The instruction the decoder reads from a table word (bit 0 is the least significant bit of the first byte). -/
def decodeTableWord (nbits w : Nat) : Option Instr :=
  match decode (tableWordBytes nbits w) with
  | .instr i _ => some i
  | .failure _ => none

end Sys2Proof
end

