-- ==== Sys2Proof/Config.lean ====
section
/-! DEFINITION. The implementation parameters of 00_scope.md R9 and the two named profiles of R10. The spec
makes every one of them an argument of the model, so a machine carries its parameters as plain data (the
field `params` of State) and no step changes them; claims hold for every value of them. -/

namespace Sys2Proof

/-- The parameters of 00_scope.md R9 other than `LEN`, which the host presents with the buffer. -/
structure Params where
  /-- `FALLBACK_UNRECOGNIZED`, how far the cursor moves after an unrecognized opcode byte; at least 1. -/
  fallbackUnrecognized : Nat
  /-- `FALLBACK_UNSUPPORTED`, how far the cursor moves after an unsupported variant; at least 1. -/
  fallbackUnsupported : Nat
  /-- `DISP_SIGNED`, OPEN in the spec: whether a displacement's value is two's-complement. It reaches
  `DispValue` and the rendered text only (40_decode_step.md R103). -/
  dispSigned : Bool
  /-- `CURSOR_BITS`, the width of an implementation's cursor register; at least the bit length of `LEN`. -/
  cursorBits : Nat
  deriving DecidableEq, Repr

/-- The named profiles of 00_scope.md R10: REDESIGN is the default, LEGACY the source repository's skips. -/
inductive Profile where
  | redesign
  | legacy
  deriving DecidableEq, Repr

/-- `FALLBACK_UNRECOGNIZED` of a profile (00_scope.md R10). -/
def Profile.fallbackUnrecognized : Profile → Nat
  | .redesign => 1
  | .legacy => 2

/-- `FALLBACK_UNSUPPORTED` of a profile (00_scope.md R10). -/
def Profile.fallbackUnsupported : Profile → Nat
  | .redesign => 1
  | .legacy => 3

/-- The parameters with a profile's two fallbacks, and the given `DISP_SIGNED` and `CURSOR_BITS`, which no
profile fixes. -/
def Profile.params (p : Profile) (dispSigned : Bool) (cursorBits : Nat) : Params where
  fallbackUnrecognized := p.fallbackUnrecognized
  fallbackUnsupported := p.fallbackUnsupported
  dispSigned := dispSigned
  cursorBits := cursorBits

/-- The limits 00_scope.md R9 sets on the parameters beside a buffer of length `len`: both fallbacks are at
least 1, and the cursor register is at least as wide as the bit length of `len` (`len < 2 ^ CURSOR_BITS`). -/
def Params.legalFor (p : Params) (len : Nat) : Bool :=
  decide (1 ≤ p.fallbackUnrecognized) && decide (1 ≤ p.fallbackUnsupported)
    && decide (len < 2 ^ p.cursorBits)

end Sys2Proof
end

