-- ==== Sys2Proof/Machine/Record.lean ====
section
/-! DEFINITION. The step records the block emits (10_state.md R36 to R38) and when one is well formed. Renamed
fields: `cls` is the spec's `class`, `start` its `at`. -/

namespace Sys2Proof.Machine

/-- The record of a successful decode (10_state.md R36). -/
structure DecodedInstruction where
  cls : OpcodeClass
  destination : Operand
  source : Operand
  totalLength : Nat
  deriving DecidableEq, Repr

/-- The three decode errors (60_exceptions.md R190). -/
inductive ErrorKind where
  | unrecognizedOpcode
  | unsupportedVariant
  | truncatedInstruction
  deriving DecidableEq, Repr

/-- The record of a failed decode (10_state.md R37): `start` is the spec's `at`, the cursor at the start of the
step, and `available` is LEN minus it. -/
structure DecodeError where
  kind : ErrorKind
  start : Nat
  byte0 : Byte
  cls : Option OpcodeClass
  available : Nat
  deriving DecidableEq, Repr

/-- A step record (10_state.md R38). -/
inductive StepRecord where
  | decoded (d : DecodedInstruction)
  | error (e : DecodeError)
  deriving DecidableEq, Repr

/-- What 10_state.md R35 and R36 say of every decoded instruction: a supported class, 2 to 6 bytes, operands
that keep their invariants. -/
def DecodedInstruction.wf (d : DecodedInstruction) : Bool :=
  !d.cls.unsupported && d.destination.wf && d.source.wf
    && decide (2 ≤ d.totalLength) && decide (d.totalLength ≤ 6)

/-- What 10_state.md R37 and 60_exceptions.md R191 say of every error record in a buffer of `len` bytes: it
starts inside the buffer, counts the bytes from there to the end, and names the class its kind has. -/
def DecodeError.wf (len : Nat) (e : DecodeError) : Bool :=
  decide (e.start < len) && decide (e.available = len - e.start) &&
    match e.kind, e.cls with
    | .unrecognizedOpcode, none => true
    | .unsupportedVariant, some c => c.unsupported
    | .truncatedInstruction, some c => !c.unsupported
    | _, _ => false

/-- A well-formed step record of a buffer of `len` bytes (10_state.md R35 to R38). -/
def StepRecord.wf (len : Nat) : StepRecord → Bool
  | .decoded d => d.wf
  | .error e => e.wf len

end Sys2Proof.Machine
end

