-- ==== Sys2Proof/Machine/State.lean ====
section
/-! DEFINITION. The state of a run as plain data: the cursor, the inputs a step reads (buffer, LEN, parameters),
the emitted records, and the mark of a broken precondition; the reasons a step can stop; the state after reset. -/

namespace Sys2Proof.Machine

/-- The input buffer's bytes (10_state.md R25) as address and byte pairs in one canonical form: addresses
strictly rising, no entry equal to what an unlisted address reads as (`unlistedByte` in Machine/Ops.lean). -/
abbrev Memory := List Host.Cell

/-- No step of this block faults: every decode error is an ordinary step record (60_exceptions.md R190, R196,
R208 (a)) and no behaviour of the block is left undefined (93_implementation_defined.md section 1). Nothing
raises a fault, which is why there is no constructor; this is exact, neither safe nor unsafe. -/
inductive Fault where
  deriving DecidableEq, Repr

/-- Why a step has no meaning. -/
inductive Refusal where
  /-- An instruction the model gives no meaning to; raised by Machine/Dispatch.lean only (safe). No arm
  raises it: every instruction has its meaning. -/
  | notModelled (mnemonic : String)
  /-- The walker is Terminal and no step is enabled (40_decode_step.md R90); raised by a step (safe). -/
  | terminal
  /-- The buffer, LEN or a parameter changed since reset: such a run has no meaning and the model refuses it
  (70_reset_and_hazards.md R221, R226; 60_exceptions.md R208 (b)); raised by a step (safe). -/
  | inputsChanged
  /-- The parameters are outside the limits of 00_scope.md R9: a fallback of 0, or a cursor register narrower
  than LEN; raised by a step (safe). -/
  | illegalParameters
  deriving DecidableEq, Repr

/-- The state of a run. The block's only architectural state is `cursor` (10_state.md R20); `buf`, `len` and
`params` are the inputs and the configuration of the run, which no step writes (R25, R39); `out` is the output
sequence since reset (R26, R42); `past` and `inputsChanged` are the model's own bookkeeping. -/
structure State where
  /-- The cursor register: the buffer address of the next opcode byte (10_state.md R21, R22). A natural number:
  DESIGN CHOICE (log entry 4). -/
  cursor : Nat
  /-- The input buffer `buf` (10_state.md R25). -/
  buf : Memory
  /-- `LEN`, the buffer's length in bytes (00_scope.md R9). -/
  len : Nat
  /-- The parameters the host fixed before reset (00_scope.md R9). In State as plain data: DESIGN CHOICE (log entry
  10, safe). -/
  params : Params
  /-- The step records emitted since reset, in step order (10_state.md R26, R42). Kept as the observation: DESIGN
  CHOICE (log entry 5, safe). -/
  out : List StepRecord
  /-- The step records emitted in the runs before the last reset, which reset does not take back
  (70_reset_and_hazards.md R218). The model's own field, no step reads it: DESIGN CHOICE (log entry 6, safe). -/
  past : List StepRecord
  /-- Whether the host changed the buffer, LEN or a parameter since reset (70_reset_and_hazards.md R221, R226).
  The model's own field, a step refuses when it is set: DESIGN CHOICE (log entry 7, safe). -/
  inputsChanged : Bool
  deriving DecidableEq, Repr

/-- `DISP_SIGNED` at `State.reset`: the source repository's behaviour. DESIGN CHOICE (log entry 3, unsafe): the
spec leaves it OPEN; no statement rests on it. -/
def resetDispSigned : Bool := false

/-- `CURSOR_BITS` at `State.reset`. DESIGN CHOICE (log entry 4, unsafe): the spec gives no number; no statement
rests on it. -/
def resetCursorBits : Nat := 64

/-- The machine right after reset (70_reset_and_hazards.md R215) with no buffer presented yet: LEN = 0, which is
Terminal at once (R217), and the default profile REDESIGN (00_scope.md R10). -/
def State.reset : State where
  cursor := 0
  buf := []
  len := 0
  params := Profile.redesign.params resetDispSigned resetCursorBits
  out := []
  past := []
  inputsChanged := false

end Sys2Proof.Machine
end

