-- ==== Sys2Proof/Machine/Ops.lean ====
section
/-! DEFINITION. The named operations on the state: the input buffer in its canonical form, the read primitive
MemRead with its bounds, the fetch window, emitting a record with the cursor update, raising a decode error, the
signals of the interface, and when a step is enabled. -/

namespace Sys2Proof.Machine

/-- What a buffer address reads as when the list holds no entry for it. DESIGN CHOICE (log entry 1, unsafe): a
byte of value 0 is represented by its absence; the host loads every byte below LEN (70_reset_and_hazards.md R219). -/
def unlistedByte : Byte := 0

/-- The canonical form of a buffer: addresses strictly rising, no entry holding the unlisted byte. -/
abbrev Memory.wf (m : Memory) : Prop :=
  m.Pairwise (fun c d => c.1 < d.1) ∧ ∀ c ∈ m, c.2 ≠ unlistedByte

/-- `buf[a]` (20_memory.md R46): the byte the host loaded at `a`. -/
def Memory.read : Memory → Nat → Byte
  | [], _ => unlistedByte
  | c :: m, a => if c.1 = a then c.2 else Memory.read m a

/-- A new entry in front, unless it holds what an unlisted address reads as. -/
def Memory.cons (a : Nat) (v : Byte) (m : Memory) : Memory :=
  if v = unlistedByte then m else (a, v) :: m

/-- The host's loading of one byte, in canonical form. The block itself never writes (20_memory.md R46). -/
def Memory.write : Memory → Nat → Byte → Memory
  | [], a, v => Memory.cons a v []
  | c :: m, a, v =>
    if a < c.1 then Memory.cons a v (c :: m)
    else if a = c.1 then Memory.cons a v m
    else c :: Memory.write m a v

/-- Consecutive bytes stored from an address on. -/
def Memory.writeBytes (m : Memory) (a : Nat) : List Byte → Memory
  | [] => m
  | v :: vs => Memory.writeBytes (Memory.write m a v) (a + 1) vs

/-- The buffer cut to its first `n` addresses: bytes at or beyond LEN do not exist (10_state.md R25). -/
def Memory.below (m : Memory) (n : Nat) : Memory :=
  m.filter (fun c => decide (c.1 < n))

/-- `n` consecutive bytes from an address on. -/
def Memory.bytesFrom (m : Memory) (a : Nat) : Nat → List Byte
  | 0 => []
  | n + 1 => m.read a :: Memory.bytesFrom m (a + 1) n

/-- The read port `buf_rd(addr)` (10_state.md R41): defined for addr < LEN. -/
def State.bufRd (s : State) (a : Nat) : Option Byte :=
  if a < s.len then some (s.buf.read a) else none

/-- `MemRead(addr, n)` for n = 1 and n = 2 (20_memory.md R47, R48): none is `raise TruncatedInstruction`, which
the whole field's bounds decide. No other n is read. -/
def State.memRead (s : State) (a : Nat) (n : Nat) : Option Word :=
  if s.len < a + n then none
  else
    match n with
    | 1 => some (zext16 (s.buf.read a))
    | 2 => some (joinLE (s.buf.read a) (s.buf.read (a + 1)))
    | _ => none

/-- The bytes a step may read: from the cursor on, at most six, none at or beyond LEN (00_scope.md R11,
10_state.md R22). Read at once: DEDUCED from R52 and R41 (log entry 11, safe). -/
def State.fetch (s : State) : List Byte :=
  s.buf.bytesFrom s.cursor (min maxInstrBytes (s.len - s.cursor))

/-- `Advance(r)` (40_decode_step.md R92). -/
def advance (p : Params) (len : Nat) : StepRecord → Nat
  | .decoded d => d.totalLength
  | .error e =>
    match e.kind with
    | .unrecognizedOpcode => p.fallbackUnrecognized
    | .unsupportedVariant => p.fallbackUnsupported
    | .truncatedInstruction => len - e.start

/-- Where a step that emits `r` at position `p` leaves the cursor: clamped to LEN (40_decode_step.md R91). -/
def nextCursor (ps : Params) (len p : Nat) (r : StepRecord) : Nat :=
  min (p + advance ps len r) len

/-- `emit r` and the cursor update, the whole state change of a step (40_decode_step.md R91). -/
def State.emit (s : State) (r : StepRecord) : State :=
  { s with
    cursor := nextCursor s.params s.len s.cursor r
    out := s.out ++ [r] }

/-- The error record of a step (10_state.md R37): it names the step's start and the bytes left from there. -/
def State.errorRecord (s : State) (kind : ErrorKind) (b0 : Byte) (c : Option OpcodeClass) : StepRecord :=
  .error { kind := kind, start := s.cursor, byte0 := b0, cls := c, available := s.len - s.cursor }

/-- Raising a decode error, the one way this block takes an exception (60_exceptions.md R196): the error record
is emitted in place of a decoded one and the cursor moves on. Nothing is saved, masked or vectored, and there is
no return from it (R198). -/
def State.raise (s : State) (kind : ErrorKind) (b0 : Byte) (c : Option OpcodeClass) : State :=
  s.emit (s.errorRecord kind b0 c)

/-- What a step does when the decoder gives no instruction (40_decode_step.md R93). With no opcode byte at the
cursor no step is enabled (R90). -/
def raiseFailure (f : DecodeFailure) (s : State) : Host.Outcome State Fault Refusal :=
  match f with
  | .noOpcodeByte => .refused .terminal
  | .unrecognizedOpcode b0 => .next (s.raise .unrecognizedOpcode b0 none)
  | .truncatedInstruction b0 c => .next (s.raise .truncatedInstruction b0 (some c))

/-- The walker is Terminal (10_state.md R23): its state is derived from the cursor. -/
def State.terminal (s : State) : Bool := decide (s.len ≤ s.cursor)

/-- The output `done` (10_state.md R41). -/
def State.done (s : State) : Bool := s.terminal

/-- The output `rec` after a step: the record that step emitted (10_state.md R41). -/
def State.lastRecord (s : State) : Option StepRecord := s.out.getLast?

/-- Why no step can be taken, or none when a step is enabled: the inputs changed since reset
(70_reset_and_hazards.md R221, R226), the parameters are illegal (00_scope.md R9), or the walker is Terminal
(40_decode_step.md R90). That each is a refusal, and their order: DESIGN CHOICE (log entries 7, 8 and 9, safe). -/
def State.refusal? (s : State) : Option Refusal :=
  if s.inputsChanged then some .inputsChanged
  else if !s.params.legalFor s.len then some .illegalParameters
  else if s.terminal then some .terminal
  else none

/-- The bit length of a number. -/
def bitLength (n : Nat) : Nat := if n = 0 then 0 else n.log2 + 1

/-- The state with `bs` in the buffer from the cursor on, in a buffer that reaches at least to their end, a
cursor register wide enough for it, and the inputs taken as presented before reset: DESIGN CHOICE (log entry 2,
safe). -/
def State.placeAtCursor (s : State) (bs : List Byte) : State :=
  let len := max s.len (s.cursor + bs.length)
  { s with
    buf := s.buf.writeBytes s.cursor bs
    len := len
    params := { s.params with cursorBits := max s.params.cursorBits (bitLength len) }
    inputsChanged := false }

end Sys2Proof.Machine
end

