-- ==== Sys2Proof/Machine/MovImmediate.lean ====
section
/-! DEFINITION. MOV immediate to register/memory and to register (42_mov_immediate.md). -/

namespace Sys2Proof.Machine

/-- The record of ImmediateToRegMem (42_mov_immediate.md R132): the size marker is always present (R134). -/
def recordImmRegMem (w : Bool) (rm : RmOperand) (imm : Word) : DecodedInstruction where
  cls := .immediateToRegMem
  destination := rm.toOperand
  source := immOperand w imm (markerOf w)
  totalLength := 2 + rm.bytes + immBytes w

/-- MOV_ImmediateToRegMem (42_mov_immediate.md R132, R135): bits 5..3 of the mod-reg-rm byte are ignored
(30_encoding.md R83). -/
def execImmediateToRegMem (w : Bool) (_x : BitVec 3) (rm : RmOperand) (imm : Word) (s : State) :
    Host.Outcome State Fault Refusal :=
  .next (s.emit (.decoded (recordImmRegMem w rm imm)))

/-- The record of ImmediateToReg (42_mov_immediate.md R142): never a size marker (R143). -/
def recordImmReg (w : Bool) (reg : Reg) (imm : Word) : DecodedInstruction where
  cls := .immediateToReg
  destination := .reg reg
  source := immOperand w imm .none
  totalLength := 1 + immBytes w

/-- MOV_ImmediateToReg (42_mov_immediate.md R142, R144). -/
def execImmediateToReg (w : Bool) (reg : Reg) (imm : Word) (s : State) :
    Host.Outcome State Fault Refusal :=
  .next (s.emit (.decoded (recordImmReg w reg imm)))

end Sys2Proof.Machine
end

