-- ==== Sys2Proof/Machine/MovRegMem.lean ====
section
/-! DEFINITION. MOV register/memory to/from register (41_mov_regmem_reg.md). The meaning of an instruction is the
record the block emits and the cursor update: the block executes no MOV (00_scope.md R3). -/

namespace Sys2Proof.Machine

/-- The record of RegMemToFromReg (41_mov_regmem_reg.md R122): DirectionFlag says which operand is the
destination (30_encoding.md R74). -/
def recordRegMem (d : Bool) (reg : Reg) (rm : RmOperand) : DecodedInstruction where
  cls := .regMemToFromReg
  destination := if d then .reg reg else rm.toOperand
  source := if d then rm.toOperand else .reg reg
  totalLength := 2 + rm.bytes

/-- MOV_RegMemToFromReg (41_mov_regmem_reg.md R122, R123): both operands already have the size of `w`. -/
def execRegMemToFromReg (d _w : Bool) (reg : Reg) (rm : RmOperand) (s : State) :
    Host.Outcome State Fault Refusal :=
  .next (s.emit (.decoded (recordRegMem d reg rm)))

end Sys2Proof.Machine
end

