-- ==== Sys2Proof/Machine/MovUnsupported.lean ====
section
/-! DEFINITION. The four MOV variants the block classifies and does not decode (43_mov_unsupported.md): their
effect is the UnsupportedVariant record and a fallback advance, which is an ordinary step (60_exceptions.md R196). -/

namespace Sys2Proof.Machine

/-- The common rule of the four unsupported classes (43_mov_unsupported.md R150). byte0 is the instruction's opcode
byte: DEDUCED to be the byte at the cursor (log entry 13, safe). -/
def raiseUnsupported (i : Instr) (s : State) : Host.Outcome State Fault Refusal :=
  .next (s.raise .unsupportedVariant (opcodeByte i) (some i.cls))

/-- MOV_MemToAcc__unsupported (43_mov_unsupported.md R151). -/
def execMemToAcc (w : Bool) (s : State) : Host.Outcome State Fault Refusal :=
  raiseUnsupported (.memToAcc w) s

/-- MOV_AccToMem__unsupported (43_mov_unsupported.md R152). -/
def execAccToMem (w : Bool) (s : State) : Host.Outcome State Fault Refusal :=
  raiseUnsupported (.accToMem w) s

/-- MOV_RegMemToSegReg__unsupported (43_mov_unsupported.md R153). -/
def execRegMemToSegReg (s : State) : Host.Outcome State Fault Refusal :=
  raiseUnsupported .regMemToSegReg s

/-- MOV_SegRegToRegMem__unsupported (43_mov_unsupported.md R154). -/
def execSegRegToRegMem (s : State) : Host.Outcome State Fault Refusal :=
  raiseUnsupported .segRegToRegMem s

end Sys2Proof.Machine
end

