-- ==== Sys2Proof/Machine/Dispatch.lean ====
section
/-! DEFINITION. One arm per constructor of Instr, each a direct call of its meaning. -/

namespace Sys2Proof.Machine

def exec (i : Instr) (s : State) : Host.Outcome State Fault Refusal :=
  match i with
  | .regMemToFromReg d w reg rm => Sys2Proof.Machine.execRegMemToFromReg d w reg rm s
  | .immediateToRegMem w x rm imm => Sys2Proof.Machine.execImmediateToRegMem w x rm imm s
  | .immediateToReg w reg imm => Sys2Proof.Machine.execImmediateToReg w reg imm s
  | .memToAcc w => Sys2Proof.Machine.execMemToAcc w s
  | .accToMem w => Sys2Proof.Machine.execAccToMem w s
  | .regMemToSegReg => Sys2Proof.Machine.execRegMemToSegReg s
  | .segRegToRegMem => Sys2Proof.Machine.execSegRegToRegMem s

end Sys2Proof.Machine
end

