-- ==== Sys2Proof/Machine/Step.lean ====
section
/-! DEFINITION. The step (40_decode_step.md R90, R91, R93), and the state with a given table word at the place
the next step fetches from. -/

namespace Sys2Proof.Machine

/-- One step: refused when it is not enabled, else the decoded instruction's meaning or the decode error. -/
def step (s : State) : Host.Outcome State Fault Refusal :=
  match s.refusal? with
  | some r => .refused r
  | none =>
    match decode s.fetch with
    | .instr i _ => exec i s
    | .failure f => raiseFailure f s

/-- The state whose next step fetches and runs the instruction of a table word: the host's load of the buffer
and LEN before reset (70_reset_and_hazards.md R219, log entry 2). -/
def State.withFetchWord (s : State) (nbits w : Nat) : State :=
  s.placeAtCursor (tableWordBytes nbits w)

end Sys2Proof.Machine
end

