-- ==== Sys2Proof/Machine/Bus.lean ====
section
/-! DEFINITION. The bit-level encoding of the `rec` output (10_state.md R34, R43) and the reading of it back. The
spec lists the signals and their widths and packs them in no order, so a bus record is a structure of bit vectors:
DESIGN CHOICE (log entry 15, safe). Fields a record does not use are 0. -/

namespace Sys2Proof.Machine

/-- The signals of one operand (10_state.md R43). -/
structure BusOperand where
  kind : BitVec 2
  reg : BitVec 4
  base : BitVec 3
  isDirectAddress : BitVec 1
  dispWidth : BitVec 2
  dispRaw : BitVec 16
  immWidth : BitVec 1
  immRaw : BitVec 16
  sizeMarker : BitVec 2
  deriving DecidableEq, Repr

/-- The signals of a step record with `CURSOR_BITS = cb` (10_state.md R43). -/
structure BusRecord (cb : Nat) where
  kind : BitVec 2
  cls : BitVec 3
  destination : BusOperand
  source : BusOperand
  totalLength : BitVec 3
  start : BitVec cb
  byte0 : BitVec 8
  available : BitVec cb
  deriving DecidableEq, Repr

/-- The 3-bit code of a class (10_state.md R34). -/
def classCode : OpcodeClass → BitVec 3
  | .regMemToFromReg => 0
  | .immediateToRegMem => 1
  | .immediateToReg => 2
  | .memToAcc => 3
  | .accToMem => 4
  | .regMemToSegReg => 5
  | .segRegToRegMem => 6

/-- The class of a 3-bit code; code 7 is unused (10_state.md R34). -/
def classOfCode (c : BitVec 3) : Option OpcodeClass :=
  match (c.toFin : Fin 8) with
  | 0 => some .regMemToFromReg
  | 1 => some .immediateToRegMem
  | 2 => some .immediateToReg
  | 3 => some .memToAcc
  | 4 => some .accToMem
  | 5 => some .regMemToSegReg
  | 6 => some .segRegToRegMem
  | 7 => none

/-- The 2-bit code of an error kind (60_exceptions.md R191); a decoded record has code 0. -/
def kindCode : ErrorKind → BitVec 2
  | .unrecognizedOpcode => 1
  | .unsupportedVariant => 2
  | .truncatedInstruction => 3

/-- The register identifier on the bus: `w ++ code` (10_state.md R43). -/
def regId (r : Reg) : BitVec 4 := BitVec.ofBool r.isWord ++ regCode r

/-- The register of a bus identifier (10_state.md R30, R43). -/
def regOfId (i : BitVec 4) : Reg := regTable (i.getLsbD 3) (i.extractLsb' 0 3)

/-- The code of a displacement width (10_state.md R43). -/
def dispWidthCode : DispWidth → BitVec 2
  | .w0 => 0
  | .w8 => 1
  | .w16 => 2

/-- The displacement width of a code (10_state.md R43). -/
def dispWidthOfCode (c : BitVec 2) : Option DispWidth :=
  match (c.toFin : Fin 4) with
  | 0 => some .w0
  | 1 => some .w8
  | 2 => some .w16
  | 3 => none

/-- The code of an immediate width (10_state.md R43). -/
def immWidthCode : ImmWidth → BitVec 1
  | .w8 => 0
  | .w16 => 1

/-- The code of a size marker (10_state.md R43). -/
def markerCode : SizeMarker → BitVec 2
  | .none => 0
  | .byte => 1
  | .word => 2

/-- The size marker of a code (10_state.md R43). -/
def markerOfCode (c : BitVec 2) : Option SizeMarker :=
  match (c.toFin : Fin 4) with
  | 0 => some .none
  | 1 => some .byte
  | 2 => some .word
  | 3 => none

/-- An operand with every signal 0 (10_state.md R43). -/
def BusOperand.zero : BusOperand :=
  { kind := 0, reg := 0, base := 0, isDirectAddress := 0, dispWidth := 0, dispRaw := 0, immWidth := 0,
    immRaw := 0, sizeMarker := 0 }

/-- The base signal (10_state.md R43). `base = None` is carried by is_direct_address; that the base signal is then 0:
DESIGN CHOICE (log entry 15, safe). -/
def baseCode : Option EffectiveAddressBase → BitVec 3
  | none => 0
  | some b => eaCode b

/-- An operand on the bus (10_state.md R43). That the signals the operand's kind does not use are 0: DESIGN CHOICE
(log entry 15, safe), since R43 says so only of the fields a record's kind does not use. -/
def operandToBus : Operand → BusOperand
  | .reg r => { BusOperand.zero with kind := 0, reg := regId r }
  | .mem m =>
    { BusOperand.zero with
      kind := 1, base := baseCode m.base, isDirectAddress := BitVec.ofBool m.isDirectAddress,
      dispWidth := dispWidthCode m.dispWidth, dispRaw := m.dispRaw }
  | .imm i =>
    { BusOperand.zero with
      kind := 2, immWidth := immWidthCode i.width, immRaw := i.raw, sizeMarker := markerCode i.sizeMarker }

/-- The operand the bus carries; none for a code R43 does not use. -/
def operandOfBus (o : BusOperand) : Option Operand :=
  match (o.kind.toFin : Fin 4) with
  | 0 => some (.reg (regOfId o.reg))
  | 1 =>
    (dispWidthOfCode o.dispWidth).map fun w =>
      .mem { base := if o.isDirectAddress = 1 then none else some (eaTable o.base)
             dispWidth := w, dispRaw := o.dispRaw, isDirectAddress := decide (o.isDirectAddress = 1) }
  | 2 =>
    (markerOfCode o.sizeMarker).map fun k =>
      .imm { width := if o.immWidth = 1 then .w16 else .w8, raw := o.immRaw, sizeMarker := k }
  | 3 => none

/-- The class signal (10_state.md R43): 0 where the record has no class, DEDUCED (log entry 15, safe). -/
def classSignal : Option OpcodeClass → BitVec 3
  | none => 0
  | some c => classCode c

/-- A step record on the bus (10_state.md R43). -/
def recordToBus (cb : Nat) : StepRecord → BusRecord cb
  | .decoded d =>
    { kind := 0, cls := classCode d.cls, destination := operandToBus d.destination,
      source := operandToBus d.source, totalLength := BitVec.ofNat 3 d.totalLength,
      start := 0, byte0 := 0, available := 0 }
  | .error e =>
    { kind := kindCode e.kind, cls := classSignal e.cls, destination := BusOperand.zero,
      source := BusOperand.zero, totalLength := 0, start := BitVec.ofNat cb e.start, byte0 := e.byte0,
      available := BitVec.ofNat cb e.available }

/-- An error record off the bus. -/
def errorOfBus {cb : Nat} (b : BusRecord cb) (kind : ErrorKind) (c : Option OpcodeClass) : StepRecord :=
  .error { kind := kind, start := b.start.toNat, byte0 := b.byte0, cls := c, available := b.available.toNat }

/-- The step record the bus carries; none for a code R43 does not use. -/
def recordOfBus {cb : Nat} (b : BusRecord cb) : Option StepRecord :=
  match (b.kind.toFin : Fin 4) with
  | 0 =>
    (classOfCode b.cls).bind fun c =>
      (operandOfBus b.destination).bind fun d =>
        (operandOfBus b.source).map fun s =>
          .decoded { cls := c, destination := d, source := s, totalLength := b.totalLength.toNat }
  | 1 => some (errorOfBus b .unrecognizedOpcode none)
  | 2 => (classOfCode b.cls).map fun c => errorOfBus b .unsupportedVariant (some c)
  | 3 => (classOfCode b.cls).map fun c => errorOfBus b .truncatedInstruction (some c)

/-- The output `rec` on the bus after a step (10_state.md R41, R43). -/
def State.recBus (s : State) : Option (BusRecord s.params.cursorBits) :=
  s.lastRecord.map (recordToBus s.params.cursorBits)

end Sys2Proof.Machine
end

