-- ==== Sys2Proof/Machine/Render.lean ====
section
/-! DEFINITION. The operand renderer (48_rendering.md): a pure function from a step record and DISP_SIGNED to one
line of text. It holds no state and the decode never reads it (R179). -/

namespace Sys2Proof.Machine

/-- A register's name in lower case (48_rendering.md R166). -/
def regName : Reg → String
  | .al => "al" | .cl => "cl" | .dl => "dl" | .bl => "bl"
  | .ah => "ah" | .ch => "ch" | .dh => "dh" | .bh => "bh"
  | .ax => "ax" | .cx => "cx" | .dx => "dx" | .bx => "bx"
  | .sp => "sp" | .bp => "bp" | .si => "si" | .di => "di"

/-- `BaseText` of an effective-address base (48_rendering.md R168). -/
def baseText : EffectiveAddressBase → String
  | .bxSi => "bx + si"
  | .bxDi => "bx + di"
  | .bpSi => "bp + si"
  | .bpDi => "bp + di"
  | .si => "si"
  | .di => "di"
  | .bp => "bp"
  | .bx => "bx"

/-- The character of a decimal digit. -/
def digitChar (d : Nat) : Char := Char.ofNat (48 + d)

/-- The decimal digits of `n` in front of `acc`; `fuel` above `n` reaches every digit. -/
def decDigits : Nat → Nat → List Char → List Char
  | 0, _, acc => acc
  | fuel + 1, n, acc =>
    if n < 10 then digitChar n :: acc
    else decDigits fuel (n / 10) (digitChar (n % 10) :: acc)

/-- `dec(n)` (48_rendering.md R169). -/
def dec (n : Nat) : String := String.ofList (decDigits (n + 1) n [])

/-- `bin8` (48_rendering.md R174): eight characters, most significant bit first. -/
def bin8 (b : Byte) : String :=
  String.ofList ([7, 6, 5, 4, 3, 2, 1, 0].map fun i => if b.getLsbD i then '1' else '0')

/-- `ClassName`: the tag's name as 10_state.md R34 writes it (48_rendering.md R175). -/
def className : OpcodeClass → String
  | .regMemToFromReg => "RegMemToFromReg"
  | .immediateToRegMem => "ImmediateToRegMem"
  | .immediateToReg => "ImmediateToReg"
  | .memToAcc => "MemToAcc"
  | .accToMem => "AccToMem"
  | .regMemToSegReg => "RegMemToSegReg"
  | .segRegToRegMem => "SegRegToRegMem"

/-- The class of an error record as text. An error record that names its class in the text always has one
(10_state.md R37); `None` is the spec's own name of the absent class: DESIGN CHOICE (log entry 14, safe). -/
def className? : Option OpcodeClass → String
  | some c => className c
  | none => "None"

/-- The text of a base with a displacement of value `v` (48_rendering.md R167). -/
def baseWithDisp (b : String) (v : Int) : String :=
  if v = 0 then "[" ++ b ++ "]"
  else if 0 < v then "[" ++ b ++ " + " ++ dec v.natAbs ++ "]"
  else "[" ++ b ++ " - " ++ dec v.natAbs ++ "]"

/-- `RenderOp` of a memory operand (48_rendering.md R167, R170, R171): a direct address is bare decimal. -/
def renderMem (dispSigned : Bool) (m : MemOperand) : String :=
  match m.base with
  | none => dec m.dispRaw.toNat
  | some b => baseWithDisp (baseText b) (dispValue dispSigned m)

/-- `Prefix(size_marker)` (48_rendering.md R172). -/
def markerText : SizeMarker → String
  | .none => ""
  | .byte => "byte "
  | .word => "word "

/-- `RenderOp` (48_rendering.md R166, R167, R172). -/
def renderOp (dispSigned : Bool) : Operand → String
  | .reg r => regName r
  | .mem m => renderMem dispSigned m
  | .imm i => markerText i.sizeMarker ++ dec i.raw.toNat

/-- The text of an error record (48_rendering.md R174 to R176). -/
def renderError (e : DecodeError) : String :=
  match e.kind with
  | .unrecognizedOpcode => "Invalid instruction: " ++ bin8 e.byte0
  | .unsupportedVariant => "Unsupported variant: " ++ className? e.cls ++ " (" ++ bin8 e.byte0 ++ ")"
  | .truncatedInstruction =>
    "Truncated instruction: " ++ className? e.cls ++ " at " ++ dec e.start
      ++ " (" ++ dec e.available ++ " of buffer left)"

/-- The text of a step record without its line feed (48_rendering.md R165, R181). -/
def renderRecord (dispSigned : Bool) : StepRecord → String
  | .decoded d => "mov, " ++ renderOp dispSigned d.destination ++ ", " ++ renderOp dispSigned d.source
  | .error e => renderError e

/-- The lines of records, each ended by one line feed (48_rendering.md R177). -/
def renderLines (dispSigned : Bool) : List StepRecord → String
  | [] => ""
  | r :: rs => renderRecord dispSigned r ++ "\n" ++ renderLines dispSigned rs

/-- The text of a run so far (48_rendering.md R177). -/
def State.text (s : State) : String := renderLines s.params.dispSigned s.out

end Sys2Proof.Machine
end

