-- ==== Sys2Proof/Machine/HostInterface.lean ====
section
/-! DEFINITION. What the outside can do to the block (70_reset_and_hazards.md R218 to R221, R226): present a
buffer, LEN and parameters, and apply reset. Each lands between steps, since a step is atomic (10_state.md
R41): DESIGN CHOICE (log entry 17, safe). -/

namespace Sys2Proof.Machine

/-- One act of the host. -/
inductive HostAction where
  /-- The file loader hands over a buffer with its length (70_reset_and_hazards.md R219 (1) and (2)). -/
  | presentBuffer (bytes : List Byte)
  /-- One byte of the presented buffer is changed (R221). An address at or beyond LEN does not exist. -/
  | changeByte (a : Nat) (v : Byte)
  /-- LEN is changed (R221). -/
  | changeLen (n : Nat)
  /-- The parameters are fixed, or changed (R219 (3), R226). -/
  | fixParams (p : Params)
  /-- Reset is applied (R218). -/
  | reset
  deriving DecidableEq, Repr

/-- New inputs, noting whether they differ from the ones before. -/
def State.withInputs (s : State) (buf : Memory) (len : Nat) (params : Params) : State :=
  { s with
    buf := buf
    len := len
    params := params
    inputsChanged :=
      s.inputsChanged || !(decide (buf = s.buf) && decide (len = s.len) && decide (params = s.params)) }

/-- Reset (70_reset_and_hazards.md R215, R218): it can be applied in any state; the cursor is 0 and the output
sequence empty, records emitted before are not taken back, and the inputs now presented are those of the run. -/
def State.applyReset (s : State) : State :=
  { s with
    cursor := 0
    out := []
    past := s.past ++ s.out
    inputsChanged := false }

/-- What an act of the host does to the state. What a change of LEN or of a byte beyond it leaves: DESIGN CHOICE
(log entry 16, unsafe where LEN grows and no byte is loaded). -/
def hostAct (a : HostAction) (s : State) : State :=
  match a with
  | .presentBuffer bytes => s.withInputs (Memory.writeBytes [] 0 bytes) bytes.length s.params
  | .changeByte a v => if a < s.len then s.withInputs (s.buf.write a v) s.len s.params else s
  | .changeLen n => s.withInputs (s.buf.below n) n s.params
  | .fixParams p => s.withInputs s.buf s.len p
  | .reset => s.applyReset

/-- The start of a run: buffer and LEN, then parameters, then reset (70_reset_and_hazards.md R220). -/
def State.boot (bytes : List Byte) (p : Params) (s : State) : State :=
  hostAct .reset (hostAct (.fixParams p) (hostAct (.presentBuffer bytes) s))

end Sys2Proof.Machine
end

