-- ==== Sys2Proof/Machine/Reference.lean ====
section
/-! DEFINITION. The spec's own pseudocode of Decode(p) (40_decode_step.md R93 and R97, 41_mov_regmem_reg.md R122,
42_mov_immediate.md R132 and R142) over the buffer by address. The machine does not run it: it is the yardstick
claims hold the machine's step against. -/

namespace Sys2Proof.Machine

/-- `DecodeRM(mod, rm, w, q)` (40_decode_step.md R97); none is a `MemRead` that raised. -/
def refDecodeRM (s : State) (mod : BitVec 2) (rm : BitVec 3) (w : Bool) (q : Nat) :
    Option (Operand × Nat) :=
  if mod = 0b11#2 then
    some (.reg (regTable w rm), 0)
  else if mod = 0b00#2 ∧ rm = 0b110#3 then do
    let a ← s.memRead q 2
    return (.mem { base := none, dispWidth := .w16, dispRaw := a, isDirectAddress := true }, 2)
  else if mod = 0b00#2 then
    some (.mem { base := some (eaTable rm), dispWidth := .w0, dispRaw := 0, isDirectAddress := false }, 0)
  else if mod = 0b01#2 then do
    let v ← s.memRead q 1
    return (.mem { base := some (eaTable rm), dispWidth := .w8, dispRaw := v, isDirectAddress := false }, 1)
  else do
    let v ← s.memRead q 2
    return (.mem { base := some (eaTable rm), dispWidth := .w16, dispRaw := v, isDirectAddress := false }, 2)

/-- `DecodeRegMem(p, b0)` (41_mov_regmem_reg.md R122). -/
def refDecodeRegMem (s : State) (p : Nat) (b0 : Byte) : Option DecodedInstruction := do
  let w := b0.getLsbD 0
  let d := b0.getLsbD 1
  let b1 ← s.bufRd (p + 1)
  let (rmOp, n) ← refDecodeRM s (b1.extractLsb' 6 2) (b1.extractLsb' 0 3) w (p + 2)
  let regOp := Operand.reg (regTable w (b1.extractLsb' 3 3))
  return {
    cls := .regMemToFromReg
    destination := if d then regOp else rmOp
    source := if d then rmOp else regOp
    totalLength := 2 + n }

/-- `DecodeImmRegMem(p, b0)` (42_mov_immediate.md R132). -/
def refDecodeImmRegMem (s : State) (p : Nat) (b0 : Byte) : Option DecodedInstruction := do
  let w := b0.getLsbD 0
  let b1 ← s.bufRd (p + 1)
  let (rmOp, n) ← refDecodeRM s (b1.extractLsb' 6 2) (b1.extractLsb' 0 3) w (p + 2)
  let k := if w then 2 else 1
  let imm ← s.memRead (p + 2 + n) k
  return {
    cls := .immediateToRegMem
    destination := rmOp
    source := .imm { width := if w then .w16 else .w8, raw := imm, sizeMarker := if w then .word else .byte }
    totalLength := 2 + n + k }

/-- `DecodeImmReg(p, b0)` (42_mov_immediate.md R142). -/
def refDecodeImmReg (s : State) (p : Nat) (b0 : Byte) : Option DecodedInstruction := do
  let w := b0.getLsbD 3
  let k := if w then 2 else 1
  let imm ← s.memRead (p + 1) k
  return {
    cls := .immediateToReg
    destination := .reg (regTable w (b0.extractLsb' 0 3))
    source := .imm { width := if w then .w16 else .w8, raw := imm, sizeMarker := .none }
    totalLength := 1 + k }

/-- The error record of a decode at `p` (40_decode_step.md R93). -/
def refError (s : State) (p : Nat) (kind : ErrorKind) (c : Option OpcodeClass) : StepRecord :=
  .error { kind := kind, start := p, byte0 := s.buf.read p, cls := c, available := s.len - p }

/-- A per-variant decode, or the TruncatedInstruction record of its class (40_decode_step.md R93). -/
def refOrTruncated (s : State) (p : Nat) (c : OpcodeClass) : Option DecodedInstruction → StepRecord
  | some d => .decoded d
  | none => refError s p .truncatedInstruction (some c)

/-- `Decode(p)` for p < LEN (40_decode_step.md R93). -/
def refDecode (s : State) (p : Nat) : StepRecord :=
  let b0 := s.buf.read p
  match classify b0 with
  | none => refError s p .unrecognizedOpcode none
  | some .memToAcc => refError s p .unsupportedVariant (some .memToAcc)
  | some .accToMem => refError s p .unsupportedVariant (some .accToMem)
  | some .regMemToSegReg => refError s p .unsupportedVariant (some .regMemToSegReg)
  | some .segRegToRegMem => refError s p .unsupportedVariant (some .segRegToRegMem)
  | some .regMemToFromReg => refOrTruncated s p .regMemToFromReg (refDecodeRegMem s p b0)
  | some .immediateToRegMem => refOrTruncated s p .immediateToRegMem (refDecodeImmRegMem s p b0)
  | some .immediateToReg => refOrTruncated s p .immediateToReg (refDecodeImmReg s p b0)

/-- The records of a walk of the buffer from position `p`: each is the decode at its own start, and the next
starts where the step's cursor update leaves it (40_decode_step.md R91, R112). The walk ends at `q`. -/
def isWalk (s : State) : Nat → List StepRecord → Nat → Prop
  | p, [], q => p = q
  | p, r :: rs, q => p < s.len ∧ r = refDecode s p ∧ isWalk s (nextCursor s.params s.len p r) rs q

/-- The start addresses of records emitted from position `p` on (40_decode_step.md R112). -/
def recordStarts (ps : Params) (len : Nat) : Nat → List StepRecord → List Nat
  | _, [] => []
  | p, r :: rs => p :: recordStarts ps len (nextCursor ps len p r) rs

end Sys2Proof.Machine
end

