-- ==== Sys2Proof/Safety.lean ====
section
/-! DEFINITION. The terms claims are stated in: when a run has a meaning, the walker's two states, the invariant
of the block, the record of the whole run, and what a step leaves alone. -/

namespace Sys2Proof.Machine

/-- A run with a meaning: the inputs did not change since reset and the parameters are legal (00_scope.md R9,
70_reset_and_hazards.md R221, R226). -/
abbrev State.Runnable (s : State) : Prop :=
  s.inputsChanged = false ∧ s.params.legalFor s.len = true

/-- The walker is Scanning (10_state.md R23). -/
abbrev State.Scanning (s : State) : Prop := s.cursor < s.len

/-- The block's invariant: the buffer in canonical form and inside LEN; and, unless the host broke the run's
precondition, the cursor within LEN (10_state.md R21) and every emitted record well formed (R35 to R37). -/
structure State.Inv (s : State) : Prop where
  bufCanonical : s.buf.wf
  bufInsideLen : ∀ c ∈ s.buf, c.1 < s.len
  cursorInsideLen : s.inputsChanged = false → s.cursor ≤ s.len
  recordsWellFormed : s.inputsChanged = false → ∀ r ∈ s.out, r.wf s.len = true

/-- The output sequence is exactly the walk of the buffer from address 0 to the cursor (40_decode_step.md R91,
R93, R112). -/
def State.OutputIsWalk (s : State) : Prop := isWalk s 0 s.out s.cursor

/-- Everything but the cursor and the output sequence is as it was, the buffer at every address among it
(10_state.md R20, R24; 60_exceptions.md R196). -/
structure State.KeptBy (s t : State) : Prop where
  buf : t.buf = s.buf
  everyByte : ∀ a, t.bufRd a = s.bufRd a
  len : t.len = s.len
  params : t.params = s.params
  past : t.past = s.past
  inputsChanged : t.inputsChanged = s.inputsChanged

/-- The state with another value of the parameter DISP_SIGNED (40_decode_step.md R103). -/
def State.withDispSigned (s : State) (b : Bool) : State :=
  { s with params := { s.params with dispSigned := b } }

/-- The operand that the mod and rm fields name in a record of an opcode byte: the source of a RegMemToFromReg
with DirectionFlag, else the destination (30_encoding.md R74, 42_mov_immediate.md R130). -/
def rmOperandOf (b0 : Byte) (d : DecodedInstruction) : Operand :=
  if classify b0 = some .regMemToFromReg ∧ directionFlag b0 = true then d.source else d.destination

/-- The immediate bytes that follow the displacement in a class with a mod-reg-rm byte (30_encoding.md R78). -/
def immBytesAfterRm (b0 : Byte) : Nat :=
  if classify b0 = some .immediateToRegMem then immBytes (wordFlag b0) else 0

/-- The bytes a record accounts for: total_length of a decoded one (70_reset_and_hazards.md R222); an error record
names no length. -/
def recordLength : StepRecord → Nat
  | .decoded d => d.totalLength
  | .error _ => 0

/-- The number a list of binary digit characters stands for. -/
def readBin (cs : List Char) : Nat :=
  cs.foldl (fun n c => 2 * n + if c = '1' then 1 else 0) 0

/-- The number a list of decimal digit characters stands for. -/
def readDec (cs : List Char) : Nat :=
  cs.foldl (fun n c => 10 * n + (c.toNat - 48)) 0

end Sys2Proof.Machine
end

