-- ==== Sys2Proof/Certificates/Slice0/Obligations.lean ====
section
/-! DEFINITION. The statements for the provers. Each is over all states, operands, buffers and parameters it
names; `KeptBy` is the frame (everything but the cursor and the output sequence). -/

open Sys2Proof Sys2Proof.Machine

/-! ### Encoding -/

/-- 30_encoding.md R65: a class is the answer exactly when the byte satisfies its pattern, and no answer means
that no pattern is satisfied. The patterns exclude each other, so the order of the search cannot show. -/
def Obligations.ClassifyIsTheMatchingPattern : Prop :=
  ∀ b0 : Byte,
    (∀ c, classify b0 = some c ↔ ∃ p ∈ opcodePatterns, p.cls = c ∧ b0 &&& p.mask = p.expected) ∧
    (classify b0 = none ↔ ∀ p ∈ opcodePatterns, b0 &&& p.mask ≠ p.expected)

/-- RegTable (10_state.md R30), code by code, in both columns. That list position is the code is the spec's own
reading of its source (R31, decision D23). -/
def Obligations.RegisterTableAsListed : Prop :=
  ([0, 1, 2, 3, 4, 5, 6, 7].map (regTable false) = [.al, .cl, .dl, .bl, .ah, .ch, .dh, .bh]) ∧
  ([0, 1, 2, 3, 4, 5, 6, 7].map (regTable true) = [.ax, .cx, .dx, .bx, .sp, .bp, .si, .di])

/-- Words written out from the formats of 30_encoding.md (R61 to R63, R69, R70), one or two for each class, decode to
the instructions they stand for. -/
def Obligations.WrittenWordsDecode : Prop :=
  decode [0b10001001#8, 0b11011000#8] = .instr (.regMemToFromReg false true .bx (.reg .ax)) [] ∧
  decode [0b10001010#8, 0b10100011#8, 0b00110100#8, 0b00010010#8] =
    .instr (.regMemToFromReg true false .ah (.mem (based .bpDi .w16 0x1234#16))) [] ∧
  decode [0b11000111#8, 0b00101110#8, 0b00110100#8, 0b00010010#8, 0b01111000#8, 0b01010110#8] =
    .instr (.immediateToRegMem true 0b101#3 (.mem (directAddress 0x1234#16)) 0x5678#16) [] ∧
  decode [0b10111110#8, 0b00000001#8, 0b10000000#8] = .instr (.immediateToReg true .si 0x8001#16) [] ∧
  decode [0b10110100#8, 0b01111111#8] = .instr (.immediateToReg false .ah 0x7F#16) [] ∧
  decode [0b10100001#8] = .instr (.memToAcc true) [] ∧ decode [0b10100010#8] = .instr (.accToMem false) [] ∧
  decode [0b10001110#8] = .instr .regMemToSegReg [] ∧ decode [0b10001100#8] = .instr .segRegToRegMem []

/-- Every well-formed instruction's bytes decode to it, whatever follows them: no bit of an encoding is dropped. -/
def Obligations.DecodeOfEncodeIsTheInstruction : Prop :=
  ∀ (i : Instr) (rest : List Byte), i.wf = true → decode (encode i ++ rest) = .instr i rest

/-- What decodes to an instruction is that instruction's encoding followed by the bytes left over, the
instruction is well formed, and `totalLength` counts exactly the bytes read (40_decode_step.md R105). -/
def Obligations.DecodedBytesAreTheEncoding : Prop :=
  ∀ (bs : List Byte) (i : Instr) (rest : List Byte), decode bs = .instr i rest →
    i.wf = true ∧ bs = encode i ++ rest ∧ (encode i).length = i.totalLength

/-- 30_encoding.md R81: two byte strings that begin with the same two bytes and both decode give instructions of
one length. -/
def Obligations.LengthFromFirstTwoBytes : Prop :=
  ∀ (bs bs' : List Byte) (i i' : Instr) (rest rest' : List Byte),
    decode bs = .instr i rest → decode bs' = .instr i' rest' → bs.take 2 = bs'.take 2 →
    i.totalLength = i'.totalLength

/-- A decode is truncated exactly when its bytes are a proper prefix of some instruction's encoding, and then it
names that instruction's class. -/
def Obligations.TruncatedExactlyOnProperPrefixes : Prop :=
  ∀ (b0 : Byte) (bs : List Byte) (c : OpcodeClass),
    decode (b0 :: bs) = .failure (.truncatedInstruction b0 c) ↔
      ∃ (i : Instr) (more : List Byte), i.wf = true ∧ i.cls = c ∧ more ≠ [] ∧ encode i = b0 :: bs ++ more

/-! ### Each instruction's meaning, with its frame -/

/-- RegMemToFromReg completes in every state on every operand: it emits its record, operands in the order
DirectionFlag gives, moves the cursor (clamped to LEN: decision D7), and leaves everything else alone. -/
def Obligations.RegMemToFromRegEmitsItsRecord : Prop :=
  ∀ (d w : Bool) (reg : Reg) (rm : RmOperand) (s : State),
    ∃ t, exec (.regMemToFromReg d w reg rm) s = .next t ∧
      t.out = s.out ++ [.decoded {
        cls := .regMemToFromReg
        destination := if d then .reg reg else rm.toOperand
        source := if d then rm.toOperand else .reg reg
        totalLength := 2 + rm.bytes }] ∧
      t.cursor = min (s.cursor + (2 + rm.bytes)) s.len ∧ s.KeptBy t

/-- ImmediateToRegMem completes in every state on every operand: its immediate carries the size marker whatever
the destination is, and the ignored bits `x` reach nothing. -/
def Obligations.ImmediateToRegMemEmitsItsRecord : Prop :=
  ∀ (w : Bool) (x : BitVec 3) (rm : RmOperand) (imm : Word) (s : State),
    ∃ t, exec (.immediateToRegMem w x rm imm) s = .next t ∧
      t.out = s.out ++ [.decoded {
        cls := .immediateToRegMem
        destination := rm.toOperand
        source := .imm { width := if w then .w16 else .w8, raw := imm,
                         sizeMarker := if w then .word else .byte }
        totalLength := 2 + rm.bytes + if w then 2 else 1 }] ∧
      t.cursor = min (s.cursor + (2 + rm.bytes + if w then 2 else 1)) s.len ∧ s.KeptBy t

/-- ImmediateToReg completes in every state on every operand: a register destination and an unmarked immediate. -/
def Obligations.ImmediateToRegEmitsItsRecord : Prop :=
  ∀ (w : Bool) (reg : Reg) (imm : Word) (s : State),
    ∃ t, exec (.immediateToReg w reg imm) s = .next t ∧
      t.out = s.out ++ [.decoded {
        cls := .immediateToReg
        destination := .reg reg
        source := .imm { width := if w then .w16 else .w8, raw := imm, sizeMarker := .none }
        totalLength := 1 + if w then 2 else 1 }] ∧
      t.cursor = min (s.cursor + (1 + if w then 2 else 1)) s.len ∧ s.KeptBy t

/-- The four unsupported variants complete in every state: each emits the UnsupportedVariant record of its own
class and opcode byte, moves the cursor by FALLBACK_UNSUPPORTED (clamped: decision D7), and does nothing else. That
byte0 is the instruction's opcode byte even in a state with another byte at the cursor is the model's choice (log
entry 13); of a step, whose record holds the byte at the cursor, `UnsupportedClassIsReported` speaks. -/
def Obligations.UnsupportedVariantsEmitTheirRecord : Prop :=
  ∀ (i : Instr) (b0 : Byte) (s : State),
    ((i, b0) = (.memToAcc false, 0xA0#8) ∨ (i, b0) = (.memToAcc true, 0xA1#8) ∨
     (i, b0) = (.accToMem false, 0xA2#8) ∨ (i, b0) = (.accToMem true, 0xA3#8) ∨
     (i, b0) = (.regMemToSegReg, 0x8E#8) ∨ (i, b0) = (.segRegToRegMem, 0x8C#8)) →
    ∃ t, exec i s = .next t ∧
      t.out = s.out ++ [.error {
        kind := .unsupportedVariant, start := s.cursor, byte0 := b0, cls := some i.cls
        available := s.len - s.cursor }] ∧
      t.cursor = min (s.cursor + s.params.fallbackUnsupported) s.len ∧ s.KeptBy t

/-- Every instruction completes in every state, emits exactly one record and keeps the frame: nothing but the
cursor and the output sequence changes. -/
def Obligations.EveryInstructionKeepsTheFrame : Prop :=
  ∀ (i : Instr) (s : State), ∃ t r, exec i s = .next t ∧ t.out = s.out ++ [r] ∧ s.KeptBy t

/-! ### The step -/

/-- A step of a runnable, scanning state whose bytes decode to `i` is `exec i` of that state: the step adds
nothing around it. -/
def Obligations.StepRunsTheDecodedInstruction : Prop :=
  ∀ (s : State) (i : Instr) (rest : List Byte),
    s.Runnable → s.Scanning → decode s.fetch = .instr i rest → step s = exec i s

/-- 40_decode_step.md R90: in a runnable state a step gives a next state exactly when cursor < LEN, and `done` says
that it is not so. -/
def Obligations.StepEnabledExactlyInScanning : Prop :=
  ∀ s : State, s.Runnable →
    ((∃ t, step s = .next t) ↔ s.cursor < s.len) ∧ ((¬ ∃ t, step s = .next t) ↔ s.done = true)

/-- The step of a Terminal state is refused under a name of its own. That the model answers a step that is not
enabled (40_decode_step.md R90) with a refusal is the model's choice (log entry 8). -/
def Obligations.TerminalStepIsRefused : Prop :=
  ∀ s : State, s.Runnable → s.len ≤ s.cursor → step s = .refused .terminal

/-- The record a step emits is the one the spec's pseudocode of Decode(p) gives at the cursor, over the buffer
read by address (40_decode_step.md R93, R97; 41_mov_regmem_reg.md R122; 42_mov_immediate.md R132, R142). -/
def Obligations.StepEmitsTheRecordOfTheSpecsDecode : Prop :=
  ∀ s : State, s.Runnable → s.Scanning →
    ∃ t, step s = .next t ∧ t.out = s.out ++ [refDecode s s.cursor]

/-- The cursor update (40_decode_step.md R91, R92 with decisions D5 to D8): total_length after a decode, the
fallback of its kind after an unrecognized or unsupported byte, to LEN after a truncation; never past LEN. -/
def Obligations.StepMovesTheCursorByTheRecordsAdvance : Prop :=
  ∀ s t : State, step s = .next t →
    ∃ r, t.out = s.out ++ [r] ∧
      match r with
      | .decoded d => t.cursor = s.cursor + d.totalLength ∧ s.cursor + d.totalLength ≤ s.len
      | .error e =>
        match e.kind with
        | .unrecognizedOpcode => t.cursor = min (s.cursor + s.params.fallbackUnrecognized) s.len
        | .unsupportedVariant => t.cursor = min (s.cursor + s.params.fallbackUnsupported) s.len
        | .truncatedInstruction => t.cursor = s.len

/-- A step writes the cursor and the output sequence only, and emits exactly one record. -/
def Obligations.StepWritesOnlyCursorAndOutput : Prop :=
  ∀ s t : State, step s = .next t → s.KeptBy t ∧ ∃ r, t.out = s.out ++ [r] ∧ t.lastRecord = some r

/-- The forms of the r/m operand, from the bytes in the buffer (40_decode_step.md R98 to R102): for both classes
with a mod-reg-rm byte, whichever side DirectionFlag puts the operand on, and with every displacement byte and
immediate in the buffer. -/
def Obligations.RmOperandForms : Prop :=
  ∀ (s : State) (b0 b1 : Byte) (n : Nat),
    s.Runnable → s.bufRd s.cursor = some b0 → s.bufRd (s.cursor + 1) = some b1 →
    (classify b0 = some .regMemToFromReg ∨ classify b0 = some .immediateToRegMem) →
    n = dispBytes (modBits b1) (rmBits b1) →
    s.cursor + 2 + n + immBytesAfterRm b0 ≤ s.len →
    ∃ t d, step s = .next t ∧ t.out = s.out ++ [.decoded d] ∧
      d.totalLength = 2 + n + immBytesAfterRm b0 ∧
      (modBits b1 = 0b11#2 → n = 0 ∧
        rmOperandOf b0 d = .reg (regTable (wordFlag b0) (rmBits b1))) ∧
      (modBits b1 = 0b00#2 → rmBits b1 = 0b110#3 → n = 2 ∧
        ∃ a, rmOperandOf b0 d = .mem { base := none, dispWidth := .w16, dispRaw := a, isDirectAddress := true } ∧
          a.toNat = (s.buf.read (s.cursor + 2)).toNat + 256 * (s.buf.read (s.cursor + 3)).toNat) ∧
      (modBits b1 = 0b00#2 → rmBits b1 ≠ 0b110#3 → n = 0 ∧
        rmOperandOf b0 d = .mem { base := some (eaTable (rmBits b1)), dispWidth := .w0, dispRaw := 0,
                                  isDirectAddress := false }) ∧
      (modBits b1 = 0b01#2 → n = 1 ∧
        ∃ v, rmOperandOf b0 d = .mem { base := some (eaTable (rmBits b1)), dispWidth := .w8, dispRaw := v,
                                       isDirectAddress := false } ∧
          v.toNat = (s.buf.read (s.cursor + 2)).toNat) ∧
      (modBits b1 = 0b10#2 → n = 2 ∧
        ∃ v, rmOperandOf b0 d = .mem { base := some (eaTable (rmBits b1)), dispWidth := .w16, dispRaw := v,
                                       isDirectAddress := false } ∧
          v.toNat = (s.buf.read (s.cursor + 2)).toNat + 256 * (s.buf.read (s.cursor + 3)).toNat)

/-- 41_mov_regmem_reg.md R124: RegMemToFromReg is truncated exactly when its mod-reg-rm byte or its displacement
does not fit, and is decoded otherwise. -/
def Obligations.RegMemTruncation : Prop :=
  ∀ (s : State) (b0 : Byte),
    s.Runnable → s.bufRd s.cursor = some b0 → classify b0 = some .regMemToFromReg →
    ∃ t r, step s = .next t ∧ t.out = s.out ++ [r] ∧ s.KeptBy t ∧
      (s.len ≤ s.cursor + 1 ∨
        (∃ b1, s.bufRd (s.cursor + 1) = some b1 ∧
          s.len < s.cursor + 2 + dispBytes (modBits b1) (rmBits b1)) →
        r = .error { kind := .truncatedInstruction, start := s.cursor, byte0 := b0,
                     cls := some .regMemToFromReg, available := s.len - s.cursor }) ∧
      (∀ b1, s.bufRd (s.cursor + 1) = some b1 →
        s.cursor + 2 + dispBytes (modBits b1) (rmBits b1) ≤ s.len → ∃ d, r = .decoded d)

/-- 42_mov_immediate.md R135: ImmediateToRegMem is truncated exactly when its mod-reg-rm byte, its displacement or
its immediate does not fit, and is decoded otherwise, whatever its reg field is. -/
def Obligations.ImmRegMemTruncation : Prop :=
  ∀ (s : State) (b0 : Byte),
    s.Runnable → s.bufRd s.cursor = some b0 → classify b0 = some .immediateToRegMem →
    ∃ t r, step s = .next t ∧ t.out = s.out ++ [r] ∧ s.KeptBy t ∧
      (s.len ≤ s.cursor + 1 ∨
        (∃ b1, s.bufRd (s.cursor + 1) = some b1 ∧
          (s.len < s.cursor + 2 + dispBytes (modBits b1) (rmBits b1) ∨
           s.len < s.cursor + 2 + dispBytes (modBits b1) (rmBits b1) + if wordFlag b0 then 2 else 1)) →
        r = .error { kind := .truncatedInstruction, start := s.cursor, byte0 := b0,
                     cls := some .immediateToRegMem, available := s.len - s.cursor }) ∧
      (∀ b1, s.bufRd (s.cursor + 1) = some b1 →
        (s.cursor + 2 + dispBytes (modBits b1) (rmBits b1) + if wordFlag b0 then 2 else 1) ≤ s.len →
        ∃ d, r = .decoded d)

/-- 42_mov_immediate.md R144: ImmediateToReg is truncated exactly when its immediate byte or word does not fit. -/
def Obligations.ImmRegTruncation : Prop :=
  ∀ (s : State) (b0 : Byte),
    s.Runnable → s.bufRd s.cursor = some b0 → classify b0 = some .immediateToReg →
    ∃ t r, step s = .next t ∧ t.out = s.out ++ [r] ∧ s.KeptBy t ∧
      ((s.len < s.cursor + 1 + if wordFlagIR b0 then 2 else 1) →
        r = .error { kind := .truncatedInstruction, start := s.cursor, byte0 := b0,
                     cls := some .immediateToReg, available := s.len - s.cursor }) ∧
      ((s.cursor + 1 + if wordFlagIR b0 then 2 else 1) ≤ s.len → ∃ d, r = .decoded d)

/-- 42_mov_immediate.md R134 and R143: every ImmediateToRegMem record a step emits carries the marker of its
opcode byte's WordFlag, register destinations too, and no ImmediateToReg record carries one. -/
def Obligations.SizeMarkerByClass : Prop :=
  ∀ (s t : State) (d : DecodedInstruction), step s = .next t → t.out = s.out ++ [.decoded d] →
    (d.cls = .immediateToRegMem →
      ∃ i, d.source = .imm i ∧
        i.sizeMarker = if wordFlag (s.buf.read s.cursor) then .word else .byte) ∧
    (d.cls = .immediateToReg → ∃ i, d.source = .imm i ∧ i.sizeMarker = .none)

/-- 30_encoding.md R83: a step on an ImmediateToRegMem whose mod-reg-rm byte differs only in its reg field emits
the same record and leaves the cursor at the same place; and where the instruction's fields fit in the buffer, that
record is a decoded one, so that no value of the reg field is reported as an error. -/
def Obligations.IgnoredRegFieldChangesNothing : Prop :=
  ∀ (s t : State) (b1 b1' : Byte),
    classify (s.buf.read s.cursor) = some .immediateToRegMem → s.buf.wf →
    s.bufRd (s.cursor + 1) = some b1 → modBits b1' = modBits b1 → rmBits b1' = rmBits b1 →
    step s = .next t →
    ∃ t', step { s with buf := s.buf.write (s.cursor + 1) b1' } = .next t' ∧
      t'.out = t.out ∧ t'.cursor = t.cursor ∧
      (s.cursor + 2 + dispBytes (modBits b1) (rmBits b1) + immBytes (wordFlag (s.buf.read s.cursor)) ≤ s.len →
        ∃ d, t'.out = s.out ++ [.decoded d])

/-- A step on a byte below the cursor, or at or beyond the end of the instruction it decoded, does not depend on
that byte (20_memory.md R59, 40_decode_step.md R96): with any other byte there it emits the same record and moves
the cursor to the same place. -/
def Obligations.StepIgnoresBytesOutsideItsInstruction : Prop :=
  ∀ (s t : State) (d : DecodedInstruction) (a : Nat) (v : Byte),
    s.buf.wf → step s = .next t → t.out = s.out ++ [.decoded d] →
    (a < s.cursor ∨ s.cursor + d.totalLength ≤ a) →
    ∃ t', step { s with buf := s.buf.write a v } = .next t' ∧ t'.out = t.out ∧ t'.cursor = t.cursor

/-! ### Decode errors -/

/-- 60_exceptions.md R192: an opcode byte that matches no pattern is reported and passed over, at whatever place
in the buffer it stands, and no other byte is looked at. The clamp is the spec's decision D7. -/
def Obligations.UnrecognizedByteIsReported : Prop :=
  ∀ (s : State) (b0 : Byte),
    s.Runnable → s.bufRd s.cursor = some b0 → classify b0 = none →
    ∃ t, step s = .next t ∧
      t.out = s.out ++ [.error {
        kind := .unrecognizedOpcode, start := s.cursor, byte0 := b0, cls := none
        available := s.len - s.cursor }] ∧
      t.cursor = min (s.cursor + s.params.fallbackUnrecognized) s.len ∧ s.KeptBy t

/-- 60_exceptions.md R193: an opcode byte of an unsupported class is reported under its own kind and class, at
whatever place it stands, the last byte of the buffer among them. The clamp is the spec's decision D7. -/
def Obligations.UnsupportedClassIsReported : Prop :=
  ∀ (s : State) (b0 : Byte) (c : OpcodeClass),
    s.Runnable → s.bufRd s.cursor = some b0 → classify b0 = some c →
    (c = .memToAcc ∨ c = .accToMem ∨ c = .regMemToSegReg ∨ c = .segRegToRegMem) →
    ∃ t, step s = .next t ∧
      t.out = s.out ++ [.error {
        kind := .unsupportedVariant, start := s.cursor, byte0 := b0, cls := some c
        available := s.len - s.cursor }] ∧
      t.cursor = min (s.cursor + s.params.fallbackUnsupported) s.len ∧ s.KeptBy t

/-- A truncation (60_exceptions.md R194 with decision D8) leaves the cursor at LEN and the walker Terminal, so the
run ends with its record. That the next step is answered with the refusal `terminal` is the model's choice (log
entry 8). -/
def Obligations.TruncationEndsTheRun : Prop :=
  ∀ (s t : State) (e : DecodeError), step s = .next t → t.out = s.out ++ [.error e] →
    e.kind = .truncatedInstruction → t.cursor = t.len ∧ t.done = true ∧ step t = .refused .terminal

/-! ### Runs -/

/-- 40_decode_step.md R106 (derived there): every step strictly increases the cursor and keeps it within LEN. -/
def Obligations.EveryStepMovesForward : Prop :=
  ∀ s t : State, step s = .next t → s.cursor < t.cursor ∧ t.cursor ≤ t.len

/-- 40_decode_step.md R108: no error stops a run. From every runnable state with the cursor within LEN, steps
lead to Terminal, in at most LEN - cursor of them. -/
def Obligations.EveryRunReachesTerminal : Prop :=
  ∀ s : State, s.Runnable → s.cursor ≤ s.len →
    ∃ (k : Nat) (t : State), k ≤ s.len - s.cursor ∧ Host.Core.run core k s = .next t ∧
      t.cursor = t.len ∧ t.done = true ∧ t.out.length = s.out.length + k

/-- 10_state.md R27: two runs from reset over the same buffer, LEN and parameters emit the same records and stand
at the same cursor after each number of steps, whatever came before the reset. -/
def Obligations.RunsDependOnInputsOnly : Prop :=
  ∀ (s s' : State) (k : Nat) (t : State),
    s'.buf = s.buf → s'.len = s.len → s'.params = s.params →
    Host.Core.run core k s.applyReset = .next t →
    ∃ t', Host.Core.run core k s'.applyReset = .next t' ∧ t'.out = t.out ∧ t'.cursor = t.cursor

/-- Every step keeps the block's invariant. -/
def Obligations.StepKeepsTheInvariant : Prop :=
  ∀ s t : State, s.Inv → step s = .next t → t.Inv

/-- The state after reset meets the block's invariant. -/
def Obligations.ResetMeetsTheInvariant : Prop := State.reset.Inv

/-- Every act of the host (70_reset_and_hazards.md R218 to R221, R226) keeps the block's invariant. That a smaller
LEN drops the bytes beyond it, and that a byte at or beyond LEN is not changed, is the model's choice (log entry
16). -/
def Obligations.HostActsKeepTheInvariant : Prop :=
  ∀ (a : HostAction) (s : State), s.Inv → (hostAct a s).Inv

/-- Every step keeps it that the output sequence is exactly the spec's walk of the buffer from address 0 to the
cursor (40_decode_step.md R91, R93, R112). -/
def Obligations.StepKeepsTheOutputTheWalk : Prop :=
  ∀ s t : State, s.OutputIsWalk → step s = .next t → t.OutputIsWalk

/-- The base case of the walk invariant: after reset, from any state, the output sequence is empty, the cursor is 0,
and that is the walk of no step (70_reset_and_hazards.md R215, decision D3). -/
def Obligations.ResetStartsTheWalk : Prop :=
  (State.reset.out = [] ∧ State.reset.cursor = 0 ∧ State.reset.OutputIsWalk) ∧
  ∀ s : State, s.applyReset.out = [] ∧ s.applyReset.cursor = 0 ∧ s.applyReset.OutputIsWalk

/-- 40_decode_step.md R112 (derived there): the records of a run start at strictly increasing addresses below LEN,
and an error record names its own. -/
def Obligations.RecordsStartInOrder : Prop :=
  ∀ s : State, s.Runnable → s.OutputIsWalk →
    (recordStarts s.params s.len 0 s.out).Pairwise (· < ·) ∧
    (∀ a ∈ recordStarts s.params s.len 0 s.out, a < s.len) ∧
    ∀ (k : Nat) (e : DecodeError), s.out[k]? = some (.error e) →
      (recordStarts s.params s.len 0 s.out)[k]? = some e.start

/-- 70_reset_and_hazards.md R222: the cursor advances by exactly total_length after every decoded instruction. So
as long as a run has met no error, the record it emits next starts where the lengths before it add up to. -/
def Obligations.DecodedRecordsTileTheBuffer : Prop :=
  ∀ (s : State) (k : Nat), s.OutputIsWalk → k < s.out.length →
    (∀ r ∈ s.out.take k, ∃ d, r = .decoded d) →
    (recordStarts s.params s.len 0 s.out)[k]? = some ((s.out.take k).map recordLength).sum

/-- An implementation's cursor register never wraps (10_state.md R21, decisions D4 and D7): in a runnable state
that meets the invariant the cursor, and where the next step leaves it, fit in CURSOR_BITS bits. -/
def Obligations.CursorFitsItsRegister : Prop :=
  ∀ s : State, s.Inv → s.Runnable →
    s.cursor < 2 ^ s.params.cursorBits ∧ ∀ t, step s = .next t → t.cursor < 2 ^ t.params.cursorBits

/-! ### Reset and the host -/

/-- What reset leaves (70_reset_and_hazards.md R215 to R218, decision D3): the cursor is 0, the output empty, the
inputs as presented; records emitted before are kept (in the model's own field `past`, log entry 6); and with
LEN = 0 the walker is Terminal at once. That the step of that state is the refusal `terminal` is the model's choice
(log entry 8). -/
def Obligations.ResetLeavesTheStartOfARun : Prop :=
  ∀ s : State,
    s.applyReset.cursor = 0 ∧ s.applyReset.out = [] ∧ s.applyReset.past = s.past ++ s.out ∧
    s.applyReset.buf = s.buf ∧ s.applyReset.len = s.len ∧ s.applyReset.params = s.params ∧
    (s.applyReset.done = true ↔ s.len = 0) ∧
    (s.params.legalFor s.len = true → s.len = 0 → step s.applyReset = .refused .terminal) ∧
    (s.params.legalFor s.len = true → s.len ≠ 0 →
      ∃ t, step s.applyReset = .next t ∧ t.out = [refDecode s.applyReset 0])

/-- Presenting a buffer and parameters and then resetting puts exactly those bytes in the buffer
(70_reset_and_hazards.md R219, R220): address `a` reads as the byte at index `a`, and no address beyond. The cursor
is 0 and the output empty after it by what reset leaves (R215, decision D3). -/
def Obligations.BootPresentsTheBuffer : Prop :=
  ∀ (bytes : List Byte) (p : Params) (s : State),
    (∀ a, (s.boot bytes p).bufRd a = bytes[a]?) ∧ (s.boot bytes p).len = bytes.length ∧
    (s.boot bytes p).params = p ∧ (s.boot bytes p).cursor = 0 ∧ (s.boot bytes p).out = [] ∧
    (p.legalFor bytes.length = true → (s.boot bytes p).Runnable)

/-- The model refuses a run whose buffer, LEN or parameters changed (70_reset_and_hazards.md R221, R226, decision
D20): after an act of the host that changes one of them every step is refused, whatever else the host changes,
until reset. The model's choices in it: that a change after Terminal counts, where R221 speaks of reset to Terminal,
and that putting the old value back does not mend the run (log entry 7); and that the answer is `inputsChanged` in a
state that is also Terminal or has illegal parameters, which is the order of the refusals (log entry 9). -/
def Obligations.ChangedInputsAreRefusedUntilReset : Prop :=
  ∀ (s : State) (a : HostAction) (more : List HostAction),
    a ≠ .reset → .reset ∉ more →
    ((hostAct a s).buf ≠ s.buf ∨ (hostAct a s).len ≠ s.len ∨ (hostAct a s).params ≠ s.params) →
    step (more.foldl (fun u b => hostAct b u) (hostAct a s)) = .refused .inputsChanged ∧
    (more.foldl (fun u b => hostAct b u) (hostAct a s)).applyReset.inputsChanged = false

/-- The host's table word is what runs next (the model's own load of a buffer, log entry 2): with a canonical
buffer and legal fallbacks, the step from the state with a word placed at the cursor is the meaning of the
instruction the decoder reads from that word. -/
def Obligations.PlacedWordRunsNext : Prop :=
  ∀ (s : State) (nbits w : Nat) (i : Instr),
    s.buf.wf → 1 ≤ s.params.fallbackUnrecognized → 1 ≤ s.params.fallbackUnsupported →
    decodeTableWord nbits w = some i →
    step (s.withFetchWord nbits w) = exec i (s.withFetchWord nbits w)

/-! ### Values and text -/

/-- 20_memory.md R47 and R48: a read of 1 or 2 bytes answers exactly when the whole field lies below LEN, with
the bytes joined little-endian. -/
def Obligations.MemReadIsBoundedAndLittleEndian : Prop :=
  ∀ (s : State) (a : Nat) (v : Word),
    (s.memRead a 1 = some v ↔ a + 1 ≤ s.len ∧ v.toNat = (s.buf.read a).toNat) ∧
    (s.memRead a 2 = some v ↔
      a + 2 ≤ s.len ∧ v.toNat = (s.buf.read a).toNat + 256 * (s.buf.read (a + 1)).toNat) ∧
    (s.memRead a 1 = none ↔ s.len < a + 1) ∧ (s.memRead a 2 = none ↔ s.len < a + 2)

/-- 40_decode_step.md R103: the value of a displacement, with the two's-complement readings written out as
numbers. -/
def Obligations.DisplacementValue : Prop :=
  ∀ (m : MemOperand) (signed : Bool), m.wf = true →
    (m.isDirectAddress = true → dispValue signed m = m.dispRaw.toNat) ∧
    (m.isDirectAddress = false → m.dispWidth = .w0 → dispValue signed m = 0) ∧
    (m.isDirectAddress = false → m.dispWidth ≠ .w0 → dispValue false m = m.dispRaw.toNat) ∧
    (m.isDirectAddress = false → m.dispWidth = .w8 →
      dispValue true m = if m.dispRaw.toNat < 128 then (m.dispRaw.toNat : Int) else m.dispRaw.toNat - 256) ∧
    (m.isDirectAddress = false → m.dispWidth = .w16 →
      dispValue true m = if m.dispRaw.toNat < 32768 then (m.dispRaw.toNat : Int) else m.dispRaw.toNat - 65536)

/-- DISP_SIGNED reaches no step record and no cursor (40_decode_step.md R103): a step with the other value gives
the same state but for that parameter. -/
def Obligations.DispSignedReachesNoRecord : Prop :=
  ∀ (s t : State) (b : Bool), step s = .next t →
    step (s.withDispSigned b) = .next (t.withDispSigned b)

/-- 48_rendering.md R169: the decimal text of a number reads back as it, is made of the digits 0 to 9, and has no
leading zero except that 0 is written 0. -/
def Obligations.DecimalTextReadsBack : Prop :=
  ∀ n : Nat,
    readDec (dec n).toList = n ∧ (∀ c ∈ (dec n).toList, '0' ≤ c ∧ c ≤ '9') ∧
    (n = 0 → dec n = "0") ∧ (n ≠ 0 → ∃ c cs, (dec n).toList = c :: cs ∧ c ≠ '0')

/-- 48_rendering.md R170: a zero displacement renders without a term, at every displacement width and under
either value of DISP_SIGNED. -/
def Obligations.ZeroDisplacementIsSuppressed : Prop :=
  ∀ (m : MemOperand) (b : EffectiveAddressBase) (signed : Bool),
    m.wf = true → m.base = some b →
    (m.dispRaw = 0 ↔ renderOp signed (.mem m) = "[" ++ baseText b ++ "]")

/-- The text of a displacement with its top bit set (48_rendering.md R167, decision D22): subtracted from the base
under DISP_SIGNED, added as an unsigned number without it. -/
def Obligations.NegativeDisplacementText : Prop :=
  ∀ (m : MemOperand) (b : EffectiveAddressBase), m.wf = true → m.base = some b →
    (m.dispWidth = .w8 → 128 ≤ m.dispRaw.toNat →
      renderOp true (.mem m) = "[" ++ baseText b ++ " - " ++ dec (256 - m.dispRaw.toNat) ++ "]" ∧
      renderOp false (.mem m) = "[" ++ baseText b ++ " + " ++ dec m.dispRaw.toNat ++ "]") ∧
    (m.dispWidth = .w16 → 32768 ≤ m.dispRaw.toNat →
      renderOp true (.mem m) = "[" ++ baseText b ++ " - " ++ dec (65536 - m.dispRaw.toNat) ++ "]" ∧
      renderOp false (.mem m) = "[" ++ baseText b ++ " + " ++ dec m.dispRaw.toNat ++ "]")

/-- The binary text of a byte (48_rendering.md R174, decision D16): eight characters `0` or `1`, most significant
first, that read back as the byte. -/
def Obligations.BinaryTextReadsBack : Prop :=
  ∀ b : Byte, (bin8 b).toList.length = 8 ∧ (∀ c ∈ (bin8 b).toList, c = '0' ∨ c = '1') ∧
    readBin (bin8 b).toList = b.toNat

/-- Every record renders as one line: its text holds no line feed, and a run's text holds one line feed for each
record (48_rendering.md R177, decision D15). -/
def Obligations.OneLinePerRecord : Prop :=
  (∀ (r : StepRecord) (signed : Bool), '\n' ∉ (renderRecord signed r).toList) ∧
  ∀ s : State, s.text.toList.count '\n' = s.out.length

/-- 48_rendering.md R178 (derived there): two runs of one step, from buffers the host can present, that emit
different records with the same text. -/
def Obligations.TextDoesNotTellInstructionsApart : Prop :=
  ∀ p : Params, p.legalFor 4 = true →
    ∃ t u, step (State.reset.boot [0x8B#8, 0x06#8, 0x34#8, 0x12#8] p) = .next t ∧
      step (State.reset.boot [0xB8#8, 0x34#8, 0x12#8] p) = .next u ∧
      t.out ≠ u.out ∧ t.text = u.text ∧ t.text = "mov, ax, 4660\n"

/-- The source's worked examples (41_mov_regmem_reg.md R126, R127; 42_mov_immediate.md R146), under every legal
setting of the parameters: the record, the length and the rendered line. -/
def Obligations.WorkedExamplesOfTheSource : Prop :=
  ∀ p : Params, p.legalFor 4 = true →
    (∃ t, step (State.reset.boot [0x89#8, 0xD8#8] p) = .next t ∧
      t.out = [.decoded { cls := .regMemToFromReg, destination := .reg .ax, source := .reg .bx,
                          totalLength := 2 }] ∧
      t.text = "mov, ax, bx\n") ∧
    (∃ t, step (State.reset.boot [0x8B#8, 0x06#8, 0x34#8, 0x12#8] p) = .next t ∧
      t.out = [.decoded { cls := .regMemToFromReg, destination := .reg .ax,
                          source := .mem { base := none, dispWidth := .w16, dispRaw := 0x1234#16,
                                           isDirectAddress := true },
                          totalLength := 4 }]) ∧
    (∃ t, step (State.reset.boot [0xB8#8, 0x01#8, 0x00#8] p) = .next t ∧
      t.out = [.decoded { cls := .immediateToReg, destination := .reg .ax,
                          source := .imm { width := .w16, raw := 1#16, sizeMarker := .none },
                          totalLength := 3 }] ∧
      t.text = "mov, ax, 1\n")

/-- The bus encoding loses nothing (10_state.md R43, decision D17; log entry 15): in a runnable state
that meets the invariant, every record of the output sequence reads back from its signals. -/
def Obligations.BusCarriesEveryRecord : Prop :=
  ∀ s : State, s.Inv → s.Runnable → ∀ r ∈ s.out,
    recordOfBus (recordToBus s.params.cursorBits r) = some r

/-! ### Tables and codes as the spec lists them -/

/-- EATable (10_state.md R32), code by code. That list position is the code is the spec's own reading of its source
(R32, decision D23). -/
def Obligations.EffectiveAddressTableAsListed : Prop :=
  [0, 1, 2, 3, 4, 5, 6, 7].map eaTable = [.bxSi, .bxDi, .bpSi, .bpDi, .si, .di, .bp, .bx]

/-- The codes of an operand's signals (10_state.md R30, R32, R43; decisions D17 and D23): operand kind, register
identifier `w ++ code`, base, direct address, displacement width, immediate width and size marker. -/
def Obligations.BusOperandCodesAsListed : Prop :=
  (∀ r, (operandToBus (.reg r)).kind = 0) ∧ (∀ m, (operandToBus (.mem m)).kind = 1) ∧
  (∀ i, (operandToBus (.imm i)).kind = 2) ∧
  [.al, .cl, .dl, .bl, .ah, .ch, .dh, .bh, .ax, .cx, .dx, .bx, .sp, .bp, .si, .di].map
      (fun r => (operandToBus (.reg r)).reg) =
    [0b0000#4, 0b0001#4, 0b0010#4, 0b0011#4, 0b0100#4, 0b0101#4, 0b0110#4, 0b0111#4,
     0b1000#4, 0b1001#4, 0b1010#4, 0b1011#4, 0b1100#4, 0b1101#4, 0b1110#4, 0b1111#4] ∧
  (∀ (width : DispWidth) (raw : Word) (direct : Bool),
    [.bxSi, .bxDi, .bpSi, .bpDi, .si, .di, .bp, .bx].map
        (fun b => (operandToBus (.mem ⟨some b, width, raw, direct⟩)).base) = [0, 1, 2, 3, 4, 5, 6, 7]) ∧
  (∀ (base : Option EffectiveAddressBase) (raw : Word) (direct : Bool),
    [.w0, .w8, .w16].map (fun width => (operandToBus (.mem ⟨base, width, raw, direct⟩)).dispWidth) = [0, 1, 2]) ∧
  (∀ m : MemOperand, (operandToBus (.mem m)).dispRaw = m.dispRaw ∧
    (operandToBus (.mem m)).isDirectAddress = if m.isDirectAddress then 1 else 0) ∧
  (∀ (raw : Word) (marker : SizeMarker),
    [.w8, .w16].map (fun width => (operandToBus (.imm ⟨width, raw, marker⟩)).immWidth) = [0, 1]) ∧
  (∀ (width : ImmWidth) (raw : Word),
    [.none, .byte, .word].map (fun marker => (operandToBus (.imm ⟨width, raw, marker⟩)).sizeMarker) = [0, 1, 2]) ∧
  ∀ i : Immediate, (operandToBus (.imm i)).immRaw = i.raw

/-- The codes of a record's signals (10_state.md R34, R43; 60_exceptions.md R191; decisions D9 and D17): kind 0 to 3,
class 0 to 6, the numbers in their signals, and 0 in each field the record's kind does not use. That the class
signal of a record without a class is such a field is DEDUCED (log entry 15). -/
def Obligations.BusRecordCodesAsListed : Prop :=
  (∀ (cb : Nat) (c : OpcodeClass) (dst src : Operand) (n : Nat),
    recordToBus cb (.decoded ⟨c, dst, src, n⟩) =
      { kind := 0, cls := classCode c, destination := operandToBus dst, source := operandToBus src,
        totalLength := BitVec.ofNat 3 n, start := 0, byte0 := 0, available := 0 }) ∧
  [.regMemToFromReg, .immediateToRegMem, .immediateToReg, .memToAcc, .accToMem, .regMemToSegReg,
    .segRegToRegMem].map classCode = [0, 1, 2, 3, 4, 5, 6] ∧
  (∀ (cb a v : Nat) (b0 : Byte) (c : Option OpcodeClass),
    [.unrecognizedOpcode, .unsupportedVariant, .truncatedInstruction].map
        (fun k => (recordToBus cb (.error ⟨k, a, b0, c, v⟩)).kind) = [1, 2, 3]) ∧
  ∀ (cb : Nat) (e : DecodeError),
    (∀ c, e.cls = some c → (recordToBus cb (.error e)).cls = classCode c) ∧
    (e.cls = none → (recordToBus cb (.error e)).cls = 0) ∧
    (recordToBus cb (.error e)).start = BitVec.ofNat cb e.start ∧
    (recordToBus cb (.error e)).byte0 = e.byte0 ∧
    (recordToBus cb (.error e)).available = BitVec.ofNat cb e.available ∧
    (recordToBus cb (.error e)).totalLength = 0 ∧
    (recordToBus cb (.error e)).destination = ⟨0, 0, 0, 0, 0, 0, 0, 0, 0⟩ ∧
    (recordToBus cb (.error e)).source = ⟨0, 0, 0, 0, 0, 0, 0, 0, 0⟩
end

