-- ==== Sys2Proof/Laws/Operands.lean ====
section
/-! SUPPORT. The tables and their inverses, and the byte order of a field. -/

namespace Sys2Proof

/-- A register's code reads back as it in its own column. -/
theorem regTable_regCode (w : Bool) (r : Reg) (h : r.isWord = w) : regTable w (regCode r) = r := by
  subst h; cases r <;> rfl

@[simp] theorem regCode_regTable (w : Bool) (c : BitVec 3) : regCode (regTable w c) = c := by
  revert w c; decide

@[simp] theorem isWord_regTable (w : Bool) (c : BitVec 3) : (regTable w c).isWord = w := by
  revert w c; decide

@[simp] theorem eaTable_eaCode (b : EffectiveAddressBase) : eaTable (eaCode b) = b := by
  cases b <;> rfl

@[simp] theorem eaCode_eaTable (c : BitVec 3) : eaCode (eaTable c) = c := by
  revert c; decide

/-- Only code 110 names the base BP. -/
theorem eaTable_eq_bp (c : BitVec 3) : eaTable c = .bp ↔ c = 0b110#3 := by
  revert c; decide

theorem eaCode_eq_bp (b : EffectiveAddressBase) : eaCode b = 0b110#3 ↔ b = .bp := by
  cases b <;> decide

@[simp] theorem modField_zero : modField 0#2 = .noDisplacement := rfl
@[simp] theorem modField_one : modField 1#2 = .disp8 := rfl
@[simp] theorem modField_two : modField 2#2 = .disp16 := rfl
@[simp] theorem modField_three : modField 3#2 = .registerMode := rfl

/-- The four values of a mod field. -/
theorem mod_cases (mod : BitVec 2) : mod = 0#2 ∨ mod = 1#2 ∨ mod = 2#2 ∨ mod = 3#2 := by
  revert mod; decide

theorem joinLE_toNat (lo hi : Byte) : (joinLE lo hi).toNat = lo.toNat + 256 * hi.toNat := by
  have hl := lo.isLt
  rw [joinLE, BitVec.toNat_append, ← Nat.shiftLeft_add_eq_or_of_lt hl, Nat.shiftLeft_eq]
  omega

@[simp] theorem zext16_toNat (b : Byte) : (zext16 b).toNat = b.toNat := by
  have := b.isLt
  simp [zext16]; omega

theorem loByte_toNat (v : Word) : (loByte v).toNat = v.toNat % 256 := by
  simp [loByte, BitVec.extractLsb'_toNat]

theorem hiByte_toNat (v : Word) : (hiByte v).toNat = v.toNat / 256 := by
  have := v.isLt
  simp [hiByte, BitVec.extractLsb'_toNat, Nat.shiftRight_eq_div_pow]; omega

@[simp] theorem loByte_joinLE (lo hi : Byte) : loByte (joinLE lo hi) = lo := by
  apply BitVec.eq_of_toNat_eq
  have := lo.isLt
  rw [loByte_toNat, joinLE_toNat]; omega

@[simp] theorem hiByte_joinLE (lo hi : Byte) : hiByte (joinLE lo hi) = hi := by
  apply BitVec.eq_of_toNat_eq
  have := lo.isLt
  rw [hiByte_toNat, joinLE_toNat]; omega

/-- A field split into bytes joins back. -/
@[simp] theorem joinLE_loByte_hiByte (v : Word) : joinLE (loByte v) (hiByte v) = v := by
  apply BitVec.eq_of_toNat_eq
  rw [joinLE_toNat, loByte_toNat, hiByte_toNat]
  omega

@[simp] theorem loByte_zext16 (b : Byte) : loByte (zext16 b) = b := by
  apply BitVec.eq_of_toNat_eq
  have := b.isLt
  rw [loByte_toNat, zext16_toNat]; omega

/-- A field below 256 is its own low byte. -/
theorem zext16_loByte (v : Word) (h : v.toNat < 256) : zext16 (loByte v) = v := by
  apply BitVec.eq_of_toNat_eq
  rw [zext16_toNat, loByte_toNat]; omega

theorem zext16_lt (b : Byte) : (zext16 b).toNat < 256 := by
  rw [zext16_toNat]; exact b.isLt

/-- A displacement takes at most two bytes. -/
theorem dispBytes_le (mod : BitVec 2) (rm : BitVec 3) : dispBytes mod rm ≤ 2 := by
  revert mod rm; decide

theorem RmOperand.bytes_le (rm : RmOperand) : rm.bytes ≤ 2 := by
  cases rm with
  | reg r => simp [RmOperand.bytes]
  | mem m => simp only [RmOperand.bytes]; cases m.dispWidth <;> simp [DispWidth.bytes]

theorem immBytes_le (w : Bool) : 1 ≤ immBytes w ∧ immBytes w ≤ 2 := by
  cases w <;> simp [immBytes]

end Sys2Proof
end

