-- ==== Sys2Proof/Laws/Decode.lean ====
section
/-! SUPPORT. One spec lemma per part of the decoder: fields of a byte, the field readers, DecodeRM in both
directions and its truncation, and what each class's opcode byte is. -/

namespace Sys2Proof

/-! ### Fields of a byte -/

@[simp] theorem modBits_append (m : BitVec 2) (r s : BitVec 3) : modBits (m ++ r ++ s) = m := by
  revert m r s; decide

@[simp] theorem regBits_append (m : BitVec 2) (r s : BitVec 3) : regBits (m ++ r ++ s) = r := by
  revert m r s; decide

@[simp] theorem rmBits_append (m : BitVec 2) (r s : BitVec 3) : rmBits (m ++ r ++ s) = s := by
  revert m r s; decide

/-- A mod-reg-rm byte is its three fields (30_encoding.md R71). -/
theorem fields_append (b : Byte) : modBits b ++ regBits b ++ rmBits b = b := by
  revert b; decide

/-! ### The opcode byte and the classifier -/

/-- An instruction's opcode byte is of its class (30_encoding.md R64). -/
theorem classify_opcodeByte (i : Instr) : classify (opcodeByte i) = some i.cls := by
  have imm : ∀ (w : Bool) (c : BitVec 3),
      classify (0b1011#4 ++ BitVec.ofBool w ++ c) = some .immediateToReg := by decide
  cases i with
  | regMemToFromReg d w reg rm => revert d w; simp only [opcodeByte, Instr.cls]; decide
  | immediateToRegMem w x rm k => revert w; simp only [opcodeByte, Instr.cls]; decide
  | immediateToReg w reg k => exact imm w (regCode reg)
  | memToAcc w => revert w; decide
  | accToMem w => revert w; decide
  | regMemToSegReg => decide
  | segRegToRegMem => decide

@[simp] theorem directionFlag_opcode (d w : Bool) :
    directionFlag (0b100010#6 ++ BitVec.ofBool d ++ BitVec.ofBool w) = d := by
  revert d w; decide

@[simp] theorem wordFlag_opcodeRM (d w : Bool) :
    wordFlag (0b100010#6 ++ BitVec.ofBool d ++ BitVec.ofBool w) = w := by
  revert d w; decide

@[simp] theorem wordFlag_opcodeIRM (w : Bool) : wordFlag (0b1100011#7 ++ BitVec.ofBool w) = w := by
  revert w; decide

@[simp] theorem wordFlagIR_opcode (w : Bool) (c : BitVec 3) :
    wordFlagIR (0b1011#4 ++ BitVec.ofBool w ++ c) = w := by
  revert w c; decide

@[simp] theorem rmBits_opcodeIR (w : Bool) (c : BitVec 3) :
    rmBits (0b1011#4 ++ BitVec.ofBool w ++ c) = c := by
  revert w c; decide

@[simp] theorem wordFlag_opcodeMemToAcc (w : Bool) : wordFlag (0b1010000#7 ++ BitVec.ofBool w) = w := by
  revert w; decide

@[simp] theorem wordFlag_opcodeAccToMem (w : Bool) : wordFlag (0b1010001#7 ++ BitVec.ofBool w) = w := by
  revert w; decide

/-- What an opcode byte of each class is made of (30_encoding.md R61 to R63, R69, R70). -/
theorem opcode_of_classify (b0 : Byte) :
    (classify b0 = some .regMemToFromReg →
      b0 = 0b100010#6 ++ BitVec.ofBool (directionFlag b0) ++ BitVec.ofBool (wordFlag b0)) ∧
    (classify b0 = some .immediateToRegMem → b0 = 0b1100011#7 ++ BitVec.ofBool (wordFlag b0)) ∧
    (classify b0 = some .immediateToReg →
      b0 = 0b1011#4 ++ BitVec.ofBool (wordFlagIR b0) ++ rmBits b0) ∧
    (classify b0 = some .memToAcc → b0 = 0b1010000#7 ++ BitVec.ofBool (wordFlag b0)) ∧
    (classify b0 = some .accToMem → b0 = 0b1010001#7 ++ BitVec.ofBool (wordFlag b0)) ∧
    (classify b0 = some .regMemToSegReg → b0 = 0b10001110#8) ∧
    (classify b0 = some .segRegToRegMem → b0 = 0b10001100#8) := by
  revert b0; decide

/-! ### The field readers -/

theorem takeWord_eq_some (bs : List Byte) (v : Word) (rest : List Byte) :
    takeWord bs = some (v, rest) ↔ bs = loByte v :: hiByte v :: rest := by
  constructor
  · intro h
    match bs with
    | [] => simp [takeWord] at h
    | [b] => simp [takeWord] at h
    | lo :: hi :: r => simp only [takeWord, Option.some.injEq, Prod.mk.injEq] at h; simp [← h.1, h.2]
  · rintro rfl
    simp [takeWord]

theorem takeByte_eq_some (bs : List Byte) (v : Word) (rest : List Byte) :
    takeByte bs = some (v, rest) ↔ v.toNat < 256 ∧ bs = loByte v :: rest := by
  constructor
  · intro h
    match bs with
    | [] => simp [takeByte] at h
    | b :: r =>
      simp only [takeByte, Option.some.injEq, Prod.mk.injEq] at h
      refine ⟨?_, ?_⟩
      · rw [← h.1]; exact zext16_lt b
      · simp [← h.1, h.2]
  · rintro ⟨hv, rfl⟩
    simp [takeByte, zext16_loByte v hv]

theorem takeWord_eq_none (bs : List Byte) : takeWord bs = none ↔ bs.length < 2 := by
  match bs with
  | [] => simp [takeWord]
  | [b] => simp [takeWord]
  | lo :: hi :: r => simp [takeWord]

theorem takeByte_eq_none (bs : List Byte) : takeByte bs = none ↔ bs.length < 1 := by
  cases bs <;> simp [takeByte]

/-- An immediate read is an immediate encoded (30_encoding.md R78). -/
theorem takeImm_eq_some (w : Bool) (bs : List Byte) (v : Word) (rest : List Byte) :
    takeImm w bs = some (v, rest) ↔ immFits w v = true ∧ bs = encodeImm w v ++ rest := by
  cases w
  · simp [takeImm, takeByte_eq_some, immFits, encodeImm]
  · simp [takeImm, takeWord_eq_some, immFits, encodeImm]

theorem takeImm_eq_none (w : Bool) (bs : List Byte) : takeImm w bs = none ↔ bs.length < immBytes w := by
  cases w
  · simpa [takeImm, immBytes] using takeByte_eq_none bs
  · simpa [takeImm, immBytes] using takeWord_eq_none bs

@[simp] theorem encodeImm_length (w : Bool) (v : Word) : (encodeImm w v).length = immBytes w := by
  cases w <;> rfl

@[simp] theorem encodeDisp_length (rm : RmOperand) : (encodeDisp rm).length = rm.bytes := by
  cases rm with
  | reg r => rfl
  | mem m => simp only [encodeDisp, RmOperand.bytes]; cases m.dispWidth <;> rfl

/-! ### DecodeRM -/

/-- `DecodeRM` reads an r/m operand exactly when the operand is well formed, its fields are the mod and rm given
and its displacement bytes are the ones read (40_decode_step.md R97). -/
theorem decodeRM_eq_some (mod : BitVec 2) (rm : BitVec 3) (w : Bool) (bs : List Byte)
    (op : RmOperand) (rest : List Byte) :
    decodeRM mod rm w bs = some (op, rest) ↔
      op.wf w = true ∧ rmFields op = (mod, rm) ∧ bs = encodeDisp op ++ rest := by
  constructor
  · intro h
    rcases mod_cases mod with rfl | rfl | rfl | rfl
    · by_cases hrm : rm = 0b110#3
      · subst hrm
        simp only [decodeRM, modField_zero, if_true,
          Option.map_eq_some_iff, Prod.exists, Prod.mk.injEq] at h
        obtain ⟨v, r, hv, rfl, rfl⟩ := h
        rw [takeWord_eq_some] at hv
        subst hv
        exact ⟨rfl, rfl, rfl⟩
      · simp only [decodeRM, modField_zero, if_neg hrm, Option.some.injEq,
          Prod.mk.injEq] at h
        obtain ⟨rfl, rfl⟩ := h
        refine ⟨?_, ?_, rfl⟩
        · have hbp : eaTable rm ≠ .bp := fun hb => hrm ((eaTable_eq_bp rm).1 hb)
          simp [RmOperand.wf, MemOperand.wf, MemOperand.directHasNoBase, MemOperand.directIs16,
            MemOperand.dispFits, MemOperand.notBareBp, based, hbp]
        · simp [rmFields, based]
    · simp only [decodeRM, modField_one, Option.map_eq_some_iff, Prod.exists,
        Prod.mk.injEq] at h
      obtain ⟨v, r, hv, rfl, rfl⟩ := h
      rw [takeByte_eq_some] at hv
      obtain ⟨hlt, rfl⟩ := hv
      refine ⟨?_, ?_, rfl⟩
      · simp [RmOperand.wf, MemOperand.wf, MemOperand.directHasNoBase, MemOperand.directIs16,
          MemOperand.dispFits, MemOperand.notBareBp, based, hlt]
      · simp [rmFields, based]
    · simp only [decodeRM, modField_two, Option.map_eq_some_iff, Prod.exists,
        Prod.mk.injEq] at h
      obtain ⟨v, r, hv, rfl, rfl⟩ := h
      rw [takeWord_eq_some] at hv
      subst hv
      refine ⟨?_, ?_, rfl⟩
      · simp [RmOperand.wf, MemOperand.wf, MemOperand.directHasNoBase, MemOperand.directIs16,
          MemOperand.dispFits, MemOperand.notBareBp, based]
      · simp [rmFields, based]
    · simp only [decodeRM, modField_three, Option.some.injEq,
        Prod.mk.injEq] at h
      obtain ⟨rfl, rfl⟩ := h
      exact ⟨by simp [RmOperand.wf], by simp [rmFields], rfl⟩
  · rintro ⟨hwf, hf, rfl⟩
    cases op with
    | reg r =>
      simp only [rmFields, Prod.mk.injEq] at hf
      obtain ⟨rfl, rfl⟩ := hf
      simp only [RmOperand.wf, beq_iff_eq] at hwf
      simp [decodeRM, regTable_regCode w r hwf, encodeDisp]
    | mem m =>
      obtain ⟨base, width, raw, direct⟩ := m
      simp only [RmOperand.wf, MemOperand.wf, MemOperand.directHasNoBase, MemOperand.directIs16,
        MemOperand.dispFits, MemOperand.notBareBp, Bool.and_eq_true, beq_iff_eq] at hwf
      obtain ⟨⟨⟨hd, h16⟩, hfit⟩, hbp⟩ := hwf
      cases base with
      | none =>
        simp only [rmFields, Prod.mk.injEq] at hf
        obtain ⟨rfl, rfl⟩ := hf
        simp only [Option.isNone_none] at hd
        subst hd
        simp only [Bool.not_true, Bool.false_or, decide_eq_true_eq] at h16
        subst h16
        simp [decodeRM, encodeDisp, takeWord, directAddress]
      | some b =>
        simp only [Option.isNone_some] at hd
        subst hd
        cases width with
        | w0 =>
          simp only [rmFields, Prod.mk.injEq] at hf
          obtain ⟨rfl, rfl⟩ := hf
          have hne : eaCode b ≠ 0b110#3 := by
            rw [Ne, eaCode_eq_bp]; simpa using hbp
          simp only [decide_eq_true_eq] at hfit
          subst hfit
          simp [decodeRM, hne, encodeDisp, based]
        | w8 =>
          simp only [rmFields, Prod.mk.injEq] at hf
          obtain ⟨rfl, rfl⟩ := hf
          simp only [decide_eq_true_eq] at hfit
          simp [decodeRM, encodeDisp, takeByte, based,
            zext16_loByte raw hfit]
        | w16 =>
          simp only [rmFields, Prod.mk.injEq] at hf
          obtain ⟨rfl, rfl⟩ := hf
          simp [decodeRM, encodeDisp, takeWord, based]

/-- `DecodeRM` raises exactly when the displacement bytes are not all there (30_encoding.md R72). -/
theorem decodeRM_eq_none (mod : BitVec 2) (rm : BitVec 3) (w : Bool) (bs : List Byte) :
    decodeRM mod rm w bs = none ↔ bs.length < dispBytes mod rm := by
  unfold decodeRM dispBytes
  cases modField mod <;> simp only
  · split <;> simp [takeWord_eq_none]
  · simp [takeByte_eq_none]
  · simp [takeWord_eq_none]
  · simp

/-- The operand read takes the bytes its mod and rm say (30_encoding.md R72). -/
theorem decodeRM_bytes (mod : BitVec 2) (rm : BitVec 3) (w : Bool) (bs : List Byte)
    (op : RmOperand) (rest : List Byte) (h : decodeRM mod rm w bs = some (op, rest)) :
    op.bytes = dispBytes mod rm := by
  unfold decodeRM at h
  unfold dispBytes
  cases hm : modField mod <;> simp only [hm] at h
  · split at h
    · next hrm =>
      simp only [Option.map_eq_some_iff, Prod.exists, Prod.mk.injEq] at h
      obtain ⟨_, _, _, rfl, _⟩ := h
      simp [RmOperand.bytes, directAddress, DispWidth.bytes, hrm]
    · next hrm =>
      simp only [Option.some.injEq, Prod.mk.injEq] at h
      obtain ⟨rfl, _⟩ := h
      simp [RmOperand.bytes, based, DispWidth.bytes, hrm]
  · simp only [Option.map_eq_some_iff, Prod.exists, Prod.mk.injEq] at h
    obtain ⟨_, _, _, rfl, _⟩ := h
    rfl
  · simp only [Option.map_eq_some_iff, Prod.exists, Prod.mk.injEq] at h
    obtain ⟨_, _, _, rfl, _⟩ := h
    rfl
  · simp only [Option.some.injEq, Prod.mk.injEq] at h
    obtain ⟨rfl, _⟩ := h
    rfl

/-! ### What each class's decode is -/

theorem orTruncated_eq_instr (b0 : Byte) (c : OpcodeClass) (x : Option (Instr × List Byte)) (i : Instr)
    (rest : List Byte) : orTruncated b0 c x = .instr i rest ↔ x = some (i, rest) := by
  cases x with
  | none => simp [orTruncated]
  | some p => obtain ⟨j, r⟩ := p; simp [orTruncated]

theorem orTruncated_eq_failure (b0 : Byte) (c : OpcodeClass) (x : Option (Instr × List Byte))
    (f : DecodeFailure) :
    orTruncated b0 c x = .failure f ↔ x = none ∧ f = .truncatedInstruction b0 c := by
  cases x with
  | none => simp [orTruncated, eq_comm]
  | some p => obtain ⟨j, r⟩ := p; simp [orTruncated]

/-- The decoder's answer by class of the opcode byte. -/
theorem decode_cons (b0 : Byte) (bs : List Byte) :
    decode (b0 :: bs) =
      match classify b0 with
      | none => .failure (.unrecognizedOpcode b0)
      | some .regMemToFromReg => orTruncated b0 .regMemToFromReg (decodeRegMem b0 bs)
      | some .immediateToRegMem => orTruncated b0 .immediateToRegMem (decodeImmRegMem b0 bs)
      | some .immediateToReg => orTruncated b0 .immediateToReg (decodeImmReg b0 bs)
      | some .memToAcc => .instr (.memToAcc (wordFlag b0)) bs
      | some .accToMem => .instr (.accToMem (wordFlag b0)) bs
      | some .regMemToSegReg => .instr .regMemToSegReg bs
      | some .segRegToRegMem => .instr .segRegToRegMem bs := rfl

end Sys2Proof
end

