-- ==== Sys2Proof/Laws/Memory.lean ====
section
/-! SUPPORT. The input buffer's laws: a read after a write, the canonical form kept by every operation, equal
buffers being equal data, and the bytes of a window. -/

namespace Sys2Proof.Machine

/-- The first entry of a canonical buffer lies below the others. -/
theorem Memory.wf_cons (c : Host.Cell) (m : Memory) :
    Memory.wf (c :: m) ↔ (∀ d ∈ m, c.1 < d.1) ∧ c.2 ≠ unlistedByte ∧ Memory.wf m := by
  simp only [Memory.wf, List.pairwise_cons, List.forall_mem_cons]
  tauto

/-- An address below every entry is unlisted. -/
theorem Memory.read_of_lt (m : Memory) (a : Nat) (h : ∀ c ∈ m, a < c.1) : m.read a = unlistedByte := by
  induction m with
  | nil => rfl
  | cons c m ih =>
    have hc : c.1 ≠ a := (h c (by simp)).ne'
    rw [Memory.read, if_neg hc]
    exact ih fun d hd => h d (by simp [hd])

theorem Memory.read_cons_same (a : Nat) (v : Byte) (m : Memory) (h : ∀ c ∈ m, a < c.1) :
    (Memory.cons a v m).read a = v := by
  unfold Memory.cons
  split
  · next hv => rw [Memory.read_of_lt m a h, hv]
  · simp [Memory.read]

theorem Memory.read_cons_other (a b : Nat) (v : Byte) (m : Memory) (h : b ≠ a) :
    (Memory.cons a v m).read b = m.read b := by
  unfold Memory.cons
  split
  · rfl
  · simp [Memory.read, h.symm]

/-- A read after a write to the same address gives the byte written. -/
theorem Memory.read_write_same (m : Memory) (a : Nat) (v : Byte) (h : m.wf) :
    (m.write a v).read a = v := by
  induction m with
  | nil => exact Memory.read_cons_same a v [] (by simp)
  | cons c m ih =>
    obtain ⟨hlt, hne, hm⟩ := (Memory.wf_cons c m).1 h
    simp only [Memory.write]
    split
    · next ha =>
      refine Memory.read_cons_same a v (c :: m) ?_
      intro d hd
      rcases List.mem_cons.1 hd with rfl | hd
      · exact ha
      · exact ha.trans (hlt d hd)
    · split
      · next ha => exact Memory.read_cons_same a v m (ha ▸ hlt)
      · next ha => rw [Memory.read, if_neg (Ne.symm ha)]; exact ih hm

/-- A write leaves every other address as it was. -/
theorem Memory.read_write_other (m : Memory) (a b : Nat) (v : Byte) (h : m.wf) (hb : b ≠ a) :
    (m.write a v).read b = m.read b := by
  induction m with
  | nil => exact Memory.read_cons_other a b v [] hb
  | cons c m ih =>
    obtain ⟨hlt, hne, hm⟩ := (Memory.wf_cons c m).1 h
    simp only [Memory.write]
    split
    · exact Memory.read_cons_other a b v (c :: m) hb
    · split
      · next ha =>
        rw [Memory.read_cons_other a b v m hb, Memory.read, if_neg (by omega)]
      · simp only [Memory.read]
        split
        · rfl
        · exact ih hm

/-- An entry of a written buffer is an old one or the new one. -/
theorem Memory.mem_write (m : Memory) (a : Nat) (v : Byte) (c : Host.Cell) (h : c ∈ m.write a v) :
    c ∈ m ∨ (c = (a, v) ∧ v ≠ unlistedByte) := by
  have cons_cases : ∀ n : Memory, c ∈ Memory.cons a v n → c ∈ n ∨ (c = (a, v) ∧ v ≠ unlistedByte) := by
    intro n hn
    unfold Memory.cons at hn
    split at hn
    · exact .inl hn
    · next hv =>
      rcases List.mem_cons.1 hn with h | h
      · exact .inr ⟨h, hv⟩
      · exact .inl h
  induction m with
  | nil => exact cons_cases [] h
  | cons d m ih =>
    simp only [Memory.write] at h
    split at h
    · exact cons_cases _ h
    · split at h
      · rcases cons_cases _ h with h | h
        · exact .inl (List.mem_cons_of_mem _ h)
        · exact .inr h
      · rcases List.mem_cons.1 h with rfl | h
        · exact .inl (by simp)
        · rcases ih h with h | h
          · exact .inl (List.mem_cons_of_mem _ h)
          · exact .inr h

theorem Memory.cons_wf (a : Nat) (v : Byte) (m : Memory) (h : m.wf) (ha : ∀ c ∈ m, a < c.1) :
    (Memory.cons a v m).wf := by
  unfold Memory.cons
  split
  · exact h
  · next hv => exact (Memory.wf_cons (a, v) m).2 ⟨ha, hv, h⟩

/-- A write keeps the canonical form. -/
theorem Memory.write_wf (m : Memory) (a : Nat) (v : Byte) (h : m.wf) : (m.write a v).wf := by
  induction m with
  | nil => exact Memory.cons_wf a v [] h (by simp)
  | cons c m ih =>
    obtain ⟨hlt, hne, hm⟩ := (Memory.wf_cons c m).1 h
    simp only [Memory.write]
    split
    · next ha =>
      refine Memory.cons_wf a v (c :: m) h ?_
      intro d hd
      rcases List.mem_cons.1 hd with rfl | hd
      · exact ha
      · exact ha.trans (hlt d hd)
    · split
      · next ha => exact Memory.cons_wf a v m hm (ha ▸ hlt)
      · refine (Memory.wf_cons c _).2 ⟨?_, hne, ih hm⟩
        intro d hd
        rcases Memory.mem_write m a v d hd with hd | ⟨rfl, -⟩
        · exact hlt d hd
        · simp only; omega

/-- Storing consecutive bytes keeps the canonical form. -/
theorem Memory.writeBytes_wf (m : Memory) (a : Nat) (bs : List Byte) (h : m.wf) :
    (m.writeBytes a bs).wf := by
  induction bs generalizing m a with
  | nil => exact h
  | cons b bs ih => exact ih _ _ (Memory.write_wf m a b h)

/-- Cutting a buffer keeps the canonical form. -/
theorem Memory.below_wf (m : Memory) (n : Nat) (h : m.wf) : (m.below n).wf :=
  ⟨h.1.filter _, fun c hc => h.2 c (List.mem_filter.1 hc).1⟩

/-- A cut buffer reads as before below the cut. -/
theorem Memory.read_below (m : Memory) (n a : Nat) (h : a < n) : (m.below n).read a = m.read a := by
  induction m with
  | nil => rfl
  | cons c m ih =>
    unfold Memory.below at ih ⊢
    by_cases hc : c.1 < n
    · rw [List.filter_cons_of_pos (by simpa using hc), Memory.read, Memory.read, ih]
    · rw [List.filter_cons_of_neg (by simpa using hc), ih, Memory.read, if_neg (by omega)]

/-- Canonical buffers that read alike everywhere are the same data. -/
theorem Memory.ext_of_read (m n : Memory) (hm : m.wf) (hn : n.wf) (h : ∀ a, m.read a = n.read a) : m = n := by
  induction m generalizing n with
  | nil =>
    cases n with
    | nil => rfl
    | cons d n =>
      obtain ⟨-, hne, -⟩ := (Memory.wf_cons d n).1 hn
      exact absurd (by simpa [Memory.read] using (h d.1).symm) hne
  | cons c m ih =>
    obtain ⟨hlt, hne, hm'⟩ := (Memory.wf_cons c m).1 hm
    cases n with
    | nil => exact absurd (by simpa [Memory.read] using h c.1) hne
    | cons d n =>
      obtain ⟨hlt', hne', hn'⟩ := (Memory.wf_cons d n).1 hn
      have hcd : c.1 = d.1 := by
        by_contra hcd
        rcases Nat.lt_or_gt_of_ne hcd with hl | hl
        · have := h c.1
          rw [Memory.read, if_pos rfl, Memory.read_of_lt (d :: n)] at this
          · exact hne this
          · intro e he
            rcases List.mem_cons.1 he with rfl | he
            · exact hl
            · exact hl.trans (hlt' e he)
        · have := h d.1
          rw [eq_comm, Memory.read, if_pos rfl, Memory.read_of_lt (c :: m)] at this
          · exact hne' this
          · intro e he
            rcases List.mem_cons.1 he with rfl | he
            · exact hl
            · exact hl.trans (hlt e he)
      have hval : c.2 = d.2 := by simpa [Memory.read, hcd] using h c.1
      have hrest : m = n := by
        refine ih n hm' hn' fun a => ?_
        by_cases ha : a = c.1
        · subst ha
          rw [Memory.read_of_lt m _ hlt, Memory.read_of_lt n _ (hcd ▸ hlt')]
        · have := h a
          rwa [Memory.read, if_neg (Ne.symm ha), Memory.read, if_neg (hcd ▸ Ne.symm ha)] at this
      rw [hrest, show c = d from Prod.ext hcd hval]

/-- Consecutive bytes stored read back, and nothing else changes. -/
theorem Memory.read_writeBytes (m : Memory) (a b : Nat) (bs : List Byte) (h : m.wf) :
    (m.writeBytes a bs).read b =
      if a ≤ b ∧ b < a + bs.length then bs.getD (b - a) unlistedByte else m.read b := by
  induction bs generalizing m a with
  | nil =>
    rw [Memory.writeBytes, if_neg]
    simp only [List.length_nil]; omega
  | cons v vs ih =>
    rw [Memory.writeBytes, ih _ _ (Memory.write_wf m a v h)]
    rcases Nat.lt_trichotomy b a with hb | rfl | hb
    · rw [if_neg (by omega), if_neg (by omega), Memory.read_write_other m a b v h (by omega)]
    · rw [if_neg (by omega), if_pos ⟨le_rfl, by simp⟩, Memory.read_write_same m b v h]
      simp
    · have hstep : b - a = (b - (a + 1)) + 1 := by omega
      by_cases hin : b < a + 1 + vs.length
      · rw [if_pos ⟨by omega, hin⟩, if_pos ⟨by omega, by simp only [List.length_cons]; omega⟩, hstep]
        simp
      · rw [if_neg (by omega), if_neg (by simp only [List.length_cons]; omega),
          Memory.read_write_other m a b v h (by omega)]

/-- An entry of a stored buffer was there before or lies among the stored addresses. -/
theorem Memory.mem_writeBytes (m : Memory) (a : Nat) (bs : List Byte) (c : Host.Cell)
    (h : c ∈ m.writeBytes a bs) : c ∈ m ∨ (a ≤ c.1 ∧ c.1 < a + bs.length) := by
  induction bs generalizing m a with
  | nil => exact .inl h
  | cons v vs ih =>
    rcases ih _ _ h with h | h
    · rcases Memory.mem_write m a v c h with h | ⟨rfl, -⟩
      · exact .inl h
      · exact .inr ⟨le_rfl, by simp⟩
    · exact .inr ⟨by omega, by simp only [List.length_cons]; omega⟩

/-- A window has the length asked for. -/
@[simp] theorem Memory.bytesFrom_length (m : Memory) (a n : Nat) : (m.bytesFrom a n).length = n := by
  induction n generalizing a with
  | zero => rfl
  | succ n ih => simp [Memory.bytesFrom, ih]

/-- The byte at index `k` of a window is the byte at address `a + k`. -/
theorem Memory.getElem?_bytesFrom (m : Memory) (a n k : Nat) (h : k < n) :
    (m.bytesFrom a n)[k]? = some (m.read (a + k)) := by
  induction n generalizing a k with
  | zero => omega
  | succ n ih =>
    cases k with
    | zero => simp [Memory.bytesFrom]
    | succ k =>
      have := ih (a + 1) k (by omega)
      simpa [Memory.bytesFrom, Nat.add_assoc, Nat.add_comm 1 k] using this

/-- Two buffers that read alike on a window's addresses give the same window. -/
theorem Memory.bytesFrom_congr (m m' : Memory) (a n : Nat)
    (h : ∀ k, k < n → m'.read (a + k) = m.read (a + k)) : m'.bytesFrom a n = m.bytesFrom a n := by
  induction n generalizing a with
  | zero => rfl
  | succ n ih =>
    have h0 := h 0 (by omega)
    have hs := ih (a + 1) fun k hk => by
      have := h (k + 1) (by omega)
      rwa [show a + (k + 1) = a + 1 + k by omega] at this
    simpa [Memory.bytesFrom, hs] using h0

end Sys2Proof.Machine
end

