-- ==== Sys2Proof/Laws/PerInstr.lean ====
section
/-! SUPPORT. Statements made for every instruction, one lemma per constructor: an encoding has the length the
instruction's total_length says, and its opcode byte is of its class. -/

/-- A well-formed instruction's encoding is `totalLength` bytes long, from 1 to 6 (30_encoding.md R80, 00_scope.md
R11). -/
def Sys2Proof.Laws.EncodedLength.Statement (i : Sys2Proof.Instr) : Prop :=
  i.wf = true → (Sys2Proof.encode i).length = i.totalLength ∧ i.totalLength ≤ 6

/-- An instruction's opcode byte is classified as its class (30_encoding.md R64, R65). -/
def Sys2Proof.Laws.OpcodeClassified.Statement (i : Sys2Proof.Instr) : Prop :=
  ∃ bs, Sys2Proof.encode i = Sys2Proof.opcodeByte i :: bs ∧
    Sys2Proof.classify (Sys2Proof.opcodeByte i) = some i.cls

namespace Sys2Proof.Laws.EncodedLength

theorem regMemToFromReg (d w : Bool) (reg : Reg) (rm : RmOperand) :
    Statement (.regMemToFromReg d w reg rm) := by
  intro _
  have := rm.bytes_le
  simp [encode, encodeModRegRm, Instr.totalLength]; omega

theorem immediateToRegMem (w : Bool) (x : BitVec 3) (rm : RmOperand) (imm : Word) :
    Statement (.immediateToRegMem w x rm imm) := by
  intro _
  have := rm.bytes_le
  have := immBytes_le w
  simp [encode, encodeModRegRm, Instr.totalLength]; omega

theorem immediateToReg (w : Bool) (reg : Reg) (imm : Word) : Statement (.immediateToReg w reg imm) := by
  intro _
  have := immBytes_le w
  simp [encode, Instr.totalLength]; omega

theorem memToAcc (w : Bool) : Statement (.memToAcc w) := fun _ => ⟨rfl, Nat.le_of_ble_eq_true rfl⟩

theorem accToMem (w : Bool) : Statement (.accToMem w) := fun _ => ⟨rfl, Nat.le_of_ble_eq_true rfl⟩

theorem regMemToSegReg : Statement .regMemToSegReg := fun _ => ⟨rfl, Nat.le_of_ble_eq_true rfl⟩

theorem segRegToRegMem : Statement .segRegToRegMem := fun _ => ⟨rfl, Nat.le_of_ble_eq_true rfl⟩

end Sys2Proof.Laws.EncodedLength

namespace Sys2Proof.Laws.OpcodeClassified

theorem regMemToFromReg (d w : Bool) (reg : Reg) (rm : RmOperand) :
    Statement (.regMemToFromReg d w reg rm) := ⟨_, rfl, classify_opcodeByte _⟩

theorem immediateToRegMem (w : Bool) (x : BitVec 3) (rm : RmOperand) (imm : Word) :
    Statement (.immediateToRegMem w x rm imm) := ⟨_, rfl, classify_opcodeByte _⟩

theorem immediateToReg (w : Bool) (reg : Reg) (imm : Word) : Statement (.immediateToReg w reg imm) :=
  ⟨_, rfl, classify_opcodeByte _⟩

theorem memToAcc (w : Bool) : Statement (.memToAcc w) := ⟨_, rfl, classify_opcodeByte _⟩

theorem accToMem (w : Bool) : Statement (.accToMem w) := ⟨_, rfl, classify_opcodeByte _⟩

theorem regMemToSegReg : Statement .regMemToSegReg := ⟨_, rfl, classify_opcodeByte _⟩

theorem segRegToRegMem : Statement .segRegToRegMem := ⟨_, rfl, classify_opcodeByte _⟩

end Sys2Proof.Laws.OpcodeClassified
end

