-- ==== Sys2Proof/Laws/State.lean ====
section
/-! SUPPORT. One lemma per field per update of State, true by rfl, so that no later proof unfolds a record update. -/

namespace Sys2Proof.Machine

section Emit
variable (s : State) (r : StepRecord)

@[simp] theorem State.emit_cursor : (s.emit r).cursor = nextCursor s.params s.len s.cursor r := rfl
@[simp] theorem State.emit_out : (s.emit r).out = s.out ++ [r] := rfl
@[simp] theorem State.emit_buf : (s.emit r).buf = s.buf := rfl
@[simp] theorem State.emit_len : (s.emit r).len = s.len := rfl
@[simp] theorem State.emit_params : (s.emit r).params = s.params := rfl
@[simp] theorem State.emit_past : (s.emit r).past = s.past := rfl
@[simp] theorem State.emit_inputsChanged : (s.emit r).inputsChanged = s.inputsChanged := rfl
@[simp] theorem State.emit_bufRd (a : Nat) : (s.emit r).bufRd a = s.bufRd a := rfl

/-- Emitting a record writes the cursor and the output sequence only. -/
theorem State.emit_keptBy : s.KeptBy (s.emit r) := ⟨rfl, fun _ => rfl, rfl, rfl, rfl, rfl⟩

end Emit

section Raise
variable (s : State) (k : ErrorKind) (b0 : Byte) (c : Option OpcodeClass)

/-- Raising an error is emitting its record: no other state changes (60_exceptions.md R196). -/
theorem State.raise_eq_emit : s.raise k b0 c = s.emit (s.errorRecord k b0 c) := rfl

end Raise

section Reset
variable (s : State)

@[simp] theorem State.applyReset_cursor : s.applyReset.cursor = 0 := rfl
@[simp] theorem State.applyReset_out : s.applyReset.out = [] := rfl
@[simp] theorem State.applyReset_past : s.applyReset.past = s.past ++ s.out := rfl
@[simp] theorem State.applyReset_buf : s.applyReset.buf = s.buf := rfl
@[simp] theorem State.applyReset_len : s.applyReset.len = s.len := rfl
@[simp] theorem State.applyReset_params : s.applyReset.params = s.params := rfl
@[simp] theorem State.applyReset_inputsChanged : s.applyReset.inputsChanged = false := rfl

/-- The state after reset is a fixed point of reset. -/
theorem State.applyReset_reset : State.reset.applyReset = State.reset := rfl

end Reset

section Inputs
variable (s : State) (m : Memory) (n : Nat) (p : Params)

@[simp] theorem State.withInputs_cursor : (s.withInputs m n p).cursor = s.cursor := rfl
@[simp] theorem State.withInputs_out : (s.withInputs m n p).out = s.out := rfl
@[simp] theorem State.withInputs_past : (s.withInputs m n p).past = s.past := rfl
@[simp] theorem State.withInputs_buf : (s.withInputs m n p).buf = m := rfl
@[simp] theorem State.withInputs_len : (s.withInputs m n p).len = n := rfl
@[simp] theorem State.withInputs_params : (s.withInputs m n p).params = p := rfl

/-- The mark of changed inputs is set exactly when it was set or one of the inputs differs. -/
theorem State.withInputs_inputsChanged :
    (s.withInputs m n p).inputsChanged = true ↔
      s.inputsChanged = true ∨ m ≠ s.buf ∨ n ≠ s.len ∨ p ≠ s.params := by
  simp only [State.withInputs, Bool.or_eq_true, Bool.not_eq_true', Bool.and_eq_false_iff,
    decide_eq_false_iff_not, or_assoc, ne_eq]

end Inputs

section Place
variable (s : State) (bs : List Byte)

@[simp] theorem State.placeAtCursor_cursor : (s.placeAtCursor bs).cursor = s.cursor := rfl
@[simp] theorem State.placeAtCursor_out : (s.placeAtCursor bs).out = s.out := rfl
@[simp] theorem State.placeAtCursor_past : (s.placeAtCursor bs).past = s.past := rfl
@[simp] theorem State.placeAtCursor_buf :
    (s.placeAtCursor bs).buf = s.buf.writeBytes s.cursor bs := rfl
@[simp] theorem State.placeAtCursor_len :
    (s.placeAtCursor bs).len = max s.len (s.cursor + bs.length) := rfl
@[simp] theorem State.placeAtCursor_inputsChanged : (s.placeAtCursor bs).inputsChanged = false := rfl

end Place

section DispSigned
variable (s : State) (b : Bool)

@[simp] theorem State.withDispSigned_cursor : (s.withDispSigned b).cursor = s.cursor := rfl
@[simp] theorem State.withDispSigned_out : (s.withDispSigned b).out = s.out := rfl
@[simp] theorem State.withDispSigned_buf : (s.withDispSigned b).buf = s.buf := rfl
@[simp] theorem State.withDispSigned_len : (s.withDispSigned b).len = s.len := rfl
@[simp] theorem State.withDispSigned_past : (s.withDispSigned b).past = s.past := rfl
@[simp] theorem State.withDispSigned_inputsChanged :
    (s.withDispSigned b).inputsChanged = s.inputsChanged := rfl

/-- DISP_SIGNED is no input of a record's emission. -/
theorem State.withDispSigned_emit (r : StepRecord) :
    (s.withDispSigned b).emit r = (s.emit r).withDispSigned b := by
  cases r <;> rfl

end DispSigned

end Sys2Proof.Machine
end

