-- ==== Sys2Proof/Laws/Step.lean ====
section
/-! SUPPORT. What a step can do, said once: when it is enabled, which record it emits, and that its next state is
that emission. Later proofs cite these instead of unfolding the step. -/

namespace Sys2Proof.Machine

/-- The record an instruction's meaning emits in a state. -/
def instrRecord (i : Instr) (s : State) : StepRecord :=
  match i with
  | .regMemToFromReg d _ reg rm => .decoded (recordRegMem d reg rm)
  | .immediateToRegMem w _ rm imm => .decoded (recordImmRegMem w rm imm)
  | .immediateToReg w reg imm => .decoded (recordImmReg w reg imm)
  | .memToAcc w => s.errorRecord .unsupportedVariant (opcodeByte (.memToAcc w)) (some .memToAcc)
  | .accToMem w => s.errorRecord .unsupportedVariant (opcodeByte (.accToMem w)) (some .accToMem)
  | .regMemToSegReg => s.errorRecord .unsupportedVariant (opcodeByte .regMemToSegReg) (some .regMemToSegReg)
  | .segRegToRegMem => s.errorRecord .unsupportedVariant (opcodeByte .segRegToRegMem) (some .segRegToRegMem)

/-- Every instruction's meaning is the emission of its record. -/
theorem exec_eq_emit (i : Instr) (s : State) : exec i s = .next (s.emit (instrRecord i s)) := by
  cases i <;> rfl

/-- The record of a step by what the decoder answers. -/
def failureRecord (f : DecodeFailure) (s : State) : StepRecord :=
  match f with
  | .noOpcodeByte => s.errorRecord .unrecognizedOpcode 0 none
  | .unrecognizedOpcode b0 => s.errorRecord .unrecognizedOpcode b0 none
  | .truncatedInstruction b0 c => s.errorRecord .truncatedInstruction b0 (some c)

/-- The record the next step of a state emits. -/
def stepRecord (s : State) : StepRecord :=
  match decode s.fetch with
  | .instr i _ => instrRecord i s
  | .failure f => failureRecord f s

/-- A step is refused for no reason exactly in runnable, scanning states. -/
theorem refusal?_eq_none (s : State) : s.refusal? = none ↔ s.Runnable ∧ s.Scanning := by
  unfold State.refusal? State.Runnable State.Scanning State.terminal
  cases s.inputsChanged <;> cases s.params.legalFor s.len <;> simp

/-- In a scanning state the fetch window begins with the opcode byte at the cursor. -/
theorem fetch_cons (s : State) (h : s.Scanning) :
    s.fetch = s.buf.read s.cursor ::
      s.buf.bytesFrom (s.cursor + 1) (min maxInstrBytes (s.len - s.cursor) - 1) := by
  unfold State.Scanning at h
  have hn : min maxInstrBytes (s.len - s.cursor) = (min maxInstrBytes (s.len - s.cursor) - 1) + 1 := by
    unfold maxInstrBytes; omega
  conv_lhs => rw [State.fetch, hn]
  rfl

/-- The byte at index `k` of the fetch window (10_state.md R22). -/
theorem fetch_getElem? (s : State) (k : Nat) (hk : k < 6) (h : s.cursor + k < s.len) :
    s.fetch[k]? = some (s.buf.read (s.cursor + k)) := by
  apply Memory.getElem?_bytesFrom
  unfold maxInstrBytes; omega

@[simp] theorem fetch_length (s : State) : s.fetch.length = min 6 (s.len - s.cursor) := by
  simp [State.fetch, maxInstrBytes]

/-- The step of a runnable, scanning state. -/
theorem step_of_enabled (s : State) (hr : s.Runnable) (hs : s.Scanning) :
    step s = .next (s.emit (stepRecord s)) := by
  rw [step, (refusal?_eq_none s).2 ⟨hr, hs⟩, stepRecord]
  cases hd : decode s.fetch with
  | instr i rest => exact exec_eq_emit i s
  | failure f =>
    cases f with
    | noOpcodeByte =>
      rw [fetch_cons s hs, decode_cons] at hd
      split at hd <;> simp [orTruncated_eq_failure] at hd
    | unrecognizedOpcode b0 => rfl
    | truncatedInstruction b0 c => rfl

/-- What a step that gives a next state has done: it was enabled, and it emitted its record. -/
theorem step_eq_next (s t : State) :
    step s = .next t ↔ s.Runnable ∧ s.Scanning ∧ t = s.emit (stepRecord s) := by
  constructor
  · intro h
    have hn : s.refusal? = none := by
      cases hq : s.refusal? with
      | none => rfl
      | some r => rw [step, hq] at h; cases h
    obtain ⟨hr, hs⟩ := (refusal?_eq_none s).1 hn
    rw [step_of_enabled s hr hs] at h
    injection h with h
    exact ⟨hr, hs, h.symm⟩
  · rintro ⟨hr, hs, rfl⟩
    exact step_of_enabled s hr hs

/-- A run of one more step is the step and the run after it. -/
theorem run_succ (M : Host.Core) (k : Nat) (s : M.State) :
    M.run (k + 1) s =
      match M.step s with
      | .next t => M.run k t
      | .fault r => .fault r
      | .refused r => .refused r := rfl

/-- A run of one more step, from a step that gives a next state, for any machine. -/
theorem run_succ_next (M : Host.Core) (k : Nat) (s t : M.State) (h : M.step s = .next t) :
    M.run (k + 1) s = M.run k t := by
  rw [run_succ, h]

/-- A run of one more step that ends in a next state began with one, for any machine. -/
theorem run_succ_inv (M : Host.Core) (k : Nat) (s u : M.State) (h : M.run (k + 1) s = .next u) :
    ∃ t, M.step s = .next t ∧ M.run k t = .next u := by
  rw [run_succ] at h
  split at h
  · next t ht => exact ⟨t, ht, h⟩
  · cases h
  · cases h

/-- A run of one more step, from a step that gives a next state. -/
theorem run_succ_of_next (k : Nat) (s t : State) (h : step s = .next t) :
    Host.Core.run core (k + 1) s = Host.Core.run core k t :=
  run_succ_next core k s t h

/-- A run of one more step that ends in a next state began with one. -/
theorem run_succ_eq_next (k : Nat) (s u : State) (h : Host.Core.run core (k + 1) s = .next u) :
    ∃ t : State, step s = .next t ∧ Host.Core.run core k t = .next u :=
  run_succ_inv core k s u h

/-- The one byte an unsupported class reads is the byte at the cursor. -/
theorem stepRecord_of_unsupported (s : State) (hs : s.Scanning) (c : OpcodeClass)
    (hc : classify (s.buf.read s.cursor) = some c) (hu : c.unsupported = true) :
    stepRecord s = s.errorRecord .unsupportedVariant (s.buf.read s.cursor) (some c) := by
  obtain ⟨-, -, -, h1, h2, h3, h4⟩ := opcode_of_classify (s.buf.read s.cursor)
  rw [stepRecord, fetch_cons s hs, decode_cons, hc]
  cases c with
  | regMemToFromReg => cases hu
  | immediateToRegMem => cases hu
  | immediateToReg => cases hu
  | memToAcc => simp only [instrRecord, opcodeByte]; rw [← h1 hc]
  | accToMem => simp only [instrRecord, opcodeByte]; rw [← h2 hc]
  | regMemToSegReg => simp only [instrRecord, opcodeByte]; rw [← h3 hc]
  | segRegToRegMem => simp only [instrRecord, opcodeByte]; rw [← h4 hc]

/-- An unrecognized byte's record. -/
theorem stepRecord_of_unrecognized (s : State) (hs : s.Scanning)
    (hc : classify (s.buf.read s.cursor) = none) :
    stepRecord s = s.errorRecord .unrecognizedOpcode (s.buf.read s.cursor) none := by
  rw [stepRecord, fetch_cons s hs, decode_cons, hc]
  rfl

end Sys2Proof.Machine
end

