-- ==== Sys2Proof/Tests/Slice0.lean ====
section
/-! SUPPORT. The model's own tests. Expected results are the vectors of 95_test_vectors.md (named in each
docstring) or are written out by hand from the rule named; `witness_…` theorems show that the hypotheses of the
statement they are named after can be met together. -/

namespace Sys2Proof.Tests

open Sys2Proof.Machine

/-- A run's start over these bytes (95_test_vectors.md, notation): REDESIGN unless another profile is given. -/
def loaded (bytes : List Byte) (p : Profile := .redesign) (dispSigned : Bool := false) : State :=
  State.reset.boot bytes (p.params dispSigned 8)

/-- The output sequence and the cursor after one step. -/
def after (s : State) : Option (List StepRecord × Nat) :=
  match step s with
  | .next t => some (t.out, t.cursor)
  | .fault _ => none
  | .refused _ => none

/-- The text of the run after one step. -/
def textAfter (s : State) : Option String :=
  match step s with
  | .next t => some t.text
  | .fault _ => none
  | .refused _ => none

/-- The state after one step. -/
def stepped (s : State) : State := s.emit (stepRecord s)

/-- A RegMemToFromReg record. -/
def regMem (destination source : Operand) (totalLength : Nat) : StepRecord :=
  .decoded ⟨.regMemToFromReg, destination, source, totalLength⟩

/-- An ImmediateToRegMem record. -/
def immRegMem (destination : Operand) (source : Immediate) (totalLength : Nat) : StepRecord :=
  .decoded ⟨.immediateToRegMem, destination, .imm source, totalLength⟩

/-- An ImmediateToReg record. -/
def immReg (destination : Reg) (source : Immediate) (totalLength : Nat) : StepRecord :=
  .decoded ⟨.immediateToReg, .reg destination, .imm source, totalLength⟩

/-! ### Well-formedness refuses one ill-formed term for each check -/

theorem test_wf_refuses_reg_of_the_other_size :
    Instr.wf (.regMemToFromReg false true .al (.reg .ax)) = false ∧
    Instr.wf (.immediateToReg false .ax 0) = false := by decide

theorem test_wf_refuses_rm_reg_of_the_other_size :
    Instr.wf (.regMemToFromReg false true .ax (.reg .al)) = false ∧
    Instr.wf (.immediateToRegMem false 0 (.reg .ax) 0) = false := by decide

theorem test_wf_refuses_direct_with_a_base_and_none_without_direct :
    MemOperand.wf ⟨some .bx, .w16, 0, true⟩ = false ∧ MemOperand.wf ⟨none, .w16, 0, false⟩ = false := by decide

theorem test_wf_refuses_direct_that_is_not_16_bits :
    MemOperand.wf ⟨none, .w8, 0, true⟩ = false ∧ MemOperand.wf ⟨none, .w0, 0, true⟩ = false := by decide

theorem test_wf_refuses_displacement_wider_than_its_width :
    MemOperand.wf ⟨some .bx, .w0, 1, false⟩ = false ∧ MemOperand.wf ⟨some .bx, .w8, 256, false⟩ = false := by decide

theorem test_wf_refuses_bare_bp :
    Instr.wf (.regMemToFromReg false true .ax (.mem ⟨some .bp, .w0, 0, false⟩)) = false ∧
    Operand.wf (.mem ⟨some .bp, .w0, 0, false⟩) = false := by decide

theorem test_wf_refuses_word_immediate_of_a_byte_instruction :
    Instr.wf (.immediateToReg false .al 256) = false ∧
    Instr.wf (.immediateToRegMem false 0 (.reg .al) 256) = false ∧
    Immediate.wf ⟨.w8, 256, .none⟩ = false := by decide

theorem test_wf_refuses_decoded_record_of_an_unsupported_class_or_a_wrong_length :
    DecodedInstruction.wf ⟨.memToAcc, .reg .ax, .reg .bx, 2⟩ = false ∧
    DecodedInstruction.wf ⟨.regMemToFromReg, .reg .ax, .reg .bx, 1⟩ = false ∧
    DecodedInstruction.wf ⟨.immediateToRegMem, .reg .ax, .reg .bx, 7⟩ = false := by decide

theorem test_wf_refuses_error_record_off_its_place_or_class :
    DecodeError.wf 3 ⟨.unrecognizedOpcode, 3, 0, none, 0⟩ = false ∧
    DecodeError.wf 3 ⟨.unrecognizedOpcode, 0, 0, none, 2⟩ = false ∧
    DecodeError.wf 3 ⟨.unsupportedVariant, 0, 0xA0#8, none, 3⟩ = false ∧
    DecodeError.wf 3 ⟨.truncatedInstruction, 0, 0xA0#8, some .memToAcc, 3⟩ = false := by decide

theorem test_legal_refuses_fallback_0_and_a_narrow_cursor :
    Params.legalFor ⟨0, 1, false, 8⟩ 3 = false ∧ Params.legalFor ⟨1, 0, false, 8⟩ 3 = false ∧
    Params.legalFor ⟨1, 1, false, 2⟩ 4 = false ∧ Params.legalFor ⟨1, 1, false, 2⟩ 3 = true := by decide

/-! ### Words written out bit by bit from 30_encoding.md R61 to R63, R69 and R70 -/

/-- R61: 100010 d=0 w=1 | mod=11 reg=011 rm=000 (vector S1). -/
theorem test_decode_regMemToFromReg_register :
    decode [0b10001001#8, 0b11011000#8] = .instr (.regMemToFromReg false true .bx (.reg .ax)) [] := by decide

/-- R61: 100010 d=1 w=0 | mod=10 reg=100 rm=011 | low byte | high byte. -/
theorem test_decode_regMemToFromReg_disp16 :
    decode [0b10001010#8, 0b10100011#8, 0b00110100#8, 0b00010010#8] =
      .instr (.regMemToFromReg true false .ah (.mem ⟨some .bpDi, .w16, 0x1234#16, false⟩)) [] := by decide

/-- R62: 1100011 w=1 | mod=00 x=101 rm=110 | address low, high | immediate low, high. -/
theorem test_decode_immediateToRegMem_direct :
    decode [0b11000111#8, 0b00101110#8, 0b00110100#8, 0b00010010#8, 0b01111000#8, 0b01010110#8] =
      .instr (.immediateToRegMem true 0b101#3 (.mem ⟨none, .w16, 0x1234#16, true⟩) 0x5678#16) [] := by decide

/-- R62: 1100011 w=0 | mod=01 x=000 rm=110 | displacement | immediate; one byte is left over. -/
theorem test_decode_immediateToRegMem_disp8_on_bp :
    decode [0b11000110#8, 0b01000110#8, 0b11111110#8, 0b00000111#8, 0b10010000#8] =
      .instr (.immediateToRegMem false 0b000#3 (.mem ⟨some .bp, .w8, 0xFE#16, false⟩) 7#16)
        [0b10010000#8] := by decide

/-- R63: 1011 w=1 reg=110 | immediate low, high. -/
theorem test_decode_immediateToReg_word :
    decode [0b10111110#8, 0b00000001#8, 0b10000000#8] = .instr (.immediateToReg true .si 0x8001#16) [] := by decide

/-- R69: 1010000 w=1. -/
theorem test_decode_memToAcc : decode [0b10100001#8] = .instr (.memToAcc true) [] := by decide

/-- R69: 1010001 w=0. -/
theorem test_decode_accToMem : decode [0b10100010#8] = .instr (.accToMem false) [] := by decide

/-- R70: 10001110. -/
theorem test_decode_regMemToSegReg : decode [0b10001110#8] = .instr .regMemToSegReg [] := by decide

/-- R70: 10001100. -/
theorem test_decode_segRegToRegMem : decode [0b10001100#8] = .instr .segRegToRegMem [] := by decide

/-- A table word is read first byte lowest, with zeros above its bits: 8B 06 and an address of 0. -/
theorem test_decodeTableWord_first_byte_lowest :
    decodeTableWord 16 0x068B = some (.regMemToFromReg true true .ax (.mem ⟨none, .w16, 0, true⟩)) := by decide

/-- 95_test_vectors.md section 2: 28 bytes are recognized. -/
theorem test_classify_counts :
    ((List.range 256).filter fun n => (classify (BitVec.ofNat 8 n)).isSome).length = 28 := by decide

/-! ### One step of each instruction -/

/-- V-RM-61. -/
theorem test_step_regMemToFromReg_store_form :
    after (loaded [0x89#8, 0x96#8, 0xFE#8, 0xFF#8]) =
      some ([regMem (.mem ⟨some .bp, .w16, 0xFFFE#16, false⟩) (.reg .dx) 4], 4) := by decide

/-- V-RM-54: a byte register at code 100 is AH, and DirectionFlag makes reg the destination. -/
theorem test_step_regMemToFromReg_byte_registers :
    after (loaded [0x8A#8, 0xE0#8]) = some ([regMem (.reg .ah) (.reg .al) 2], 2) := by decide

/-- V-IRM-12: six bytes, the immediate after a 16-bit displacement. -/
theorem test_step_immediateToRegMem_longest :
    after (loaded [0xC7#8, 0x85#8, 0xFE#8, 0xFF#8, 0x00#8, 0x80#8]) =
      some ([immRegMem (.mem ⟨some .di, .w16, 0xFFFE#16, false⟩) ⟨.w16, 0x8000#16, .word⟩ 6], 6) := by decide

/-- V-IRM-3: a register destination keeps the size marker. -/
theorem test_step_immediateToRegMem_register_keeps_marker :
    after (loaded [0xC6#8, 0xC0#8, 0x05#8]) =
      some ([immRegMem (.reg .al) ⟨.w8, 5#16, .byte⟩ 3], 3) := by decide

/-- V-IR-21. -/
theorem test_step_immediateToReg_word :
    after (loaded [0xB8#8, 0x00#8, 0x80#8]) = some ([immReg .ax ⟨.w16, 0x8000#16, .none⟩ 3], 3) := by decide

/-- V-IR-5: bit 3 of the opcode byte is WordFlag, not bit 0. -/
theorem test_step_immediateToReg_byte :
    after (loaded [0xB4#8, 0x7F#8]) = some ([immReg .ah ⟨.w8, 0x7F#16, .none⟩ 2], 2) := by decide

/-- V-UN-1 and V-UN-2, first step: the cursor after it depends on the profile. -/
theorem test_step_memToAcc :
    after (loaded [0xA0#8, 0x34#8, 0x12#8]) =
      some ([.error ⟨.unsupportedVariant, 0, 0xA0#8, some .memToAcc, 3⟩], 1) ∧
    after (loaded [0xA0#8, 0x34#8, 0x12#8] .legacy) =
      some ([.error ⟨.unsupportedVariant, 0, 0xA0#8, some .memToAcc, 3⟩], 3) := by decide

/-- V-UN-10: the last byte of the buffer is unsupported, not truncated, and the skip is clamped. -/
theorem test_step_accToMem_clamped :
    after (loaded [0xA2#8] .legacy) =
      some ([.error ⟨.unsupportedVariant, 0, 0xA2#8, some .accToMem, 1⟩], 1) := by decide

/-- V-UN-6. -/
theorem test_step_regMemToSegReg_clamped :
    after (loaded [0x8E#8, 0xD8#8] .legacy) =
      some ([.error ⟨.unsupportedVariant, 0, 0x8E#8, some .regMemToSegReg, 2⟩], 2) := by decide

/-- V-UN-7, first step. -/
theorem test_step_segRegToRegMem :
    after (loaded [0x8C#8, 0xD8#8]) =
      some ([.error ⟨.unsupportedVariant, 0, 0x8C#8, some .segRegToRegMem, 2⟩], 1) := by decide

/-- The host's table word at the cursor of `State.reset` runs next: 89 D8 is S1. -/
theorem test_withFetchWord_runs_from_reset :
    after (State.reset.withFetchWord 16 0xD889) = some ([regMem (.reg .ax) (.reg .bx) 2], 2) := by decide

/-! ### Decode errors, reset and refusals -/

/-- V-CL-20. -/
theorem test_step_unrecognized :
    after (loaded [0xFF#8]) = some ([.error ⟨.unrecognizedOpcode, 0, 0xFF#8, none, 1⟩], 1) := by decide

/-- V-WK-6, second step: the 2-byte skip is clamped at LEN. -/
theorem test_step_unrecognized_clamped :
    (after (stepped (loaded [0#8, 0#8, 0#8] .legacy))).map (·.2) = some 3 := by decide

/-- V-TR-9: a word immediate with its high byte missing. -/
theorem test_step_truncated_immediate :
    after (loaded [0xC7#8, 0x06#8, 0x34#8, 0x12#8, 0x78#8]) =
      some ([.error ⟨.truncatedInstruction, 0, 0xC7#8, some .immediateToRegMem, 5⟩], 5) := by decide

/-- V-TR-3: a direct address with no byte of it in the buffer. -/
theorem test_step_truncated_address :
    after (loaded [0x8B#8, 0x06#8]) =
      some ([.error ⟨.truncatedInstruction, 0, 0x8B#8, some .regMemToFromReg, 2⟩], 2) := by decide

/-- 70_reset_and_hazards.md R217 (V-WK-1): an empty buffer is Terminal at reset. -/
theorem test_reset_of_an_empty_buffer : State.reset.done = true ∧ (loaded []).done = true := by decide

/-- R221: LEN changed during a run. -/
theorem test_changed_len_is_refused :
    (hostAct (.changeLen 2) (loaded [0xB4#8, 0x7F#8, 0x90#8])).refusal? = some .inputsChanged := by decide

/-- R221: a byte written with the value it has is no change. -/
theorem test_same_byte_is_no_change :
    hostAct (.changeByte 1 0x7F#8) (loaded [0xB4#8, 0x7F#8]) = loaded [0xB4#8, 0x7F#8] := by decide

/-! ### Text -/

/-- V-RM-61 and V-IRM-14, both settings of DISP_SIGNED. -/
theorem test_text_displacement_with_top_bit_set :
    textAfter (loaded [0x89#8, 0x96#8, 0xFE#8, 0xFF#8]) = some "mov, [bp + 65534], dx\n" ∧
    textAfter (loaded [0xC6#8, 0x42#8, 0x80#8, 0x80#8] .redesign true) =
      some "mov, [bp + si - 128], byte 128\n" := by decide

/-- V-RN-4 and V-RN-5. -/
theorem test_text_zero_displacement_and_zero_address :
    renderRecord true (regMem (.reg .ax) (.mem ⟨some .bxSi, .w16, 0, false⟩) 4) = "mov, ax, [bx + si]" ∧
    renderRecord true (regMem (.reg .ax) (.mem ⟨none, .w16, 0, true⟩) 4) = "mov, ax, 0" := by decide

/-- V-RN-10, V-RN-11 and V-RN-12. -/
theorem test_text_of_errors :
    renderRecord false (.error ⟨.unrecognizedOpcode, 0, 0x0F#8, none, 1⟩) = "Invalid instruction: 00001111" ∧
    renderRecord false (.error ⟨.unsupportedVariant, 0, 0xA2#8, some .accToMem, 1⟩) =
      "Unsupported variant: AccToMem (10100010)" ∧
    renderRecord false (.error ⟨.truncatedInstruction, 10, 0xC7#8, some .immediateToRegMem, 3⟩) =
      "Truncated instruction: ImmediateToRegMem at 10 (3 of buffer left)" := by decide

/-- 10_state.md R43: register identifier `w ++ code`, disp_width code, and the length on the bus. -/
theorem test_bus_of_a_decoded_record :
    (recordToBus 8 (regMem (.reg .sp) (.mem ⟨some .bp, .w8, 0xFE#16, false⟩) 3)).destination.reg = 0b1100#4 ∧
    (recordToBus 8 (regMem (.reg .sp) (.mem ⟨some .bp, .w8, 0xFE#16, false⟩) 3)).source.base = 0b110#3 ∧
    (recordToBus 8 (regMem (.reg .sp) (.mem ⟨some .bp, .w8, 0xFE#16, false⟩) 3)).source.dispWidth = 1#2 ∧
    (recordToBus 8 (regMem (.reg .sp) (.mem ⟨some .bp, .w8, 0xFE#16, false⟩) 3)).totalLength = 3#3 := by decide

/-! ### Witnesses: the hypotheses of each statement, met together -/

/-- The step of an enabled state, for witnesses. -/
theorem step_stepped (s : State) (hr : s.Runnable) (hs : s.Scanning) : step s = .next (stepped s) :=
  step_of_enabled s hr hs

theorem witness_DecodeOfEncodeIsTheInstruction :
    Instr.wf (.regMemToFromReg true false .bh (.mem ⟨some .bpDi, .w8, 255, false⟩)) = true ∧
    Instr.wf (.immediateToRegMem false 7 (.mem ⟨none, .w16, 0xFFFF#16, true⟩) 255) = true ∧
    Instr.wf (.immediateToReg true .di 0xFFFF#16) = true ∧ Instr.wf (.memToAcc true) = true := by decide

theorem witness_DecodedBytesAreTheEncoding :
    decode [0xC6#8, 0x3F#8, 0x05#8, 0x90#8] =
      .instr (.immediateToRegMem false 7 (.mem ⟨some .bx, .w0, 0, false⟩) 5) [0x90#8] := by decide

theorem witness_LengthFromFirstTwoBytes :
    decode [0x8B#8, 0x46#8, 0xFF#8] =
      .instr (.regMemToFromReg true true .ax (.mem ⟨some .bp, .w8, 0xFF#16, false⟩)) [] ∧
    decode [0x8B#8, 0x46#8, 0x00#8, 0x01#8] =
      .instr (.regMemToFromReg true true .ax (.mem ⟨some .bp, .w8, 0, false⟩)) [0x01#8] ∧
    [0x8B#8, 0x46#8, 0xFF#8].take 2 = [0x8B#8, 0x46#8, 0x00#8, 0x01#8].take 2 := by decide

theorem witness_TruncatedExactlyOnProperPrefixes :
    decode (0xB8#8 :: [0x01#8]) = .failure (.truncatedInstruction 0xB8#8 .immediateToReg) ∧
    Instr.wf (.immediateToReg true .ax 1) = true ∧
    encode (.immediateToReg true .ax 1) = 0xB8#8 :: [0x01#8] ++ [0x00#8] := by decide

theorem witness_UnsupportedVariantsEmitTheirRecord :
    opcodeByte (.memToAcc false) = 0xA0#8 ∧ opcodeByte (.memToAcc true) = 0xA1#8 ∧
    opcodeByte (.accToMem false) = 0xA2#8 ∧ opcodeByte (.accToMem true) = 0xA3#8 ∧
    opcodeByte .regMemToSegReg = 0x8E#8 ∧ opcodeByte .segRegToRegMem = 0x8C#8 := by decide

theorem witness_StepRunsTheDecodedInstruction :
    (loaded [0x89#8, 0xD8#8]).Runnable ∧ (loaded [0x89#8, 0xD8#8]).Scanning ∧
    decode (loaded [0x89#8, 0xD8#8]).fetch = .instr (.regMemToFromReg false true .bx (.reg .ax)) [] := by decide

/-- Both sides of the boundary: cursor = LEN - 1 and cursor = LEN. -/
theorem witness_StepEnabledExactlyInScanning :
    (loaded [0x90#8]).Runnable ∧ (loaded [0x90#8]).cursor + 1 = (loaded [0x90#8]).len ∧
    (stepped (loaded [0x90#8])).Runnable ∧
    (stepped (loaded [0x90#8])).cursor = (stepped (loaded [0x90#8])).len := by decide

theorem witness_TerminalStepIsRefused :
    (loaded []).Runnable ∧ (loaded []).len ≤ (loaded []).cursor := by decide

theorem witness_StepEmitsTheRecordOfTheSpecsDecode :
    (loaded [0xB4#8, 0x7F#8]).Runnable ∧ (loaded [0xB4#8, 0x7F#8]).Scanning := by decide

/-- A step of each record kind: decoded, unrecognized, unsupported and truncated. -/
theorem witness_StepMovesTheCursorByTheRecordsAdvance :
    (∃ t, step (loaded [0xB4#8, 0x7F#8]) = .next t ∧ t.out = [immReg .ah ⟨.w8, 0x7F#16, .none⟩ 2]) ∧
    (∃ t, step (loaded [0x90#8]) = .next t ∧ t.out = [.error ⟨.unrecognizedOpcode, 0, 0x90#8, none, 1⟩]) ∧
    (∃ t, step (loaded [0x8E#8]) = .next t ∧
      t.out = [.error ⟨.unsupportedVariant, 0, 0x8E#8, some .regMemToSegReg, 1⟩]) ∧
    (∃ t, step (loaded [0xB8#8]) = .next t ∧
      t.out = [.error ⟨.truncatedInstruction, 0, 0xB8#8, some .immediateToReg, 1⟩]) :=
  ⟨⟨_, step_stepped _ (by decide) (by decide), by decide⟩, ⟨_, step_stepped _ (by decide) (by decide), by decide⟩,
   ⟨_, step_stepped _ (by decide) (by decide), by decide⟩, ⟨_, step_stepped _ (by decide) (by decide), by decide⟩⟩

theorem witness_StepWritesOnlyCursorAndOutput :
    ∃ t, step (loaded [0xB4#8, 0x7F#8]) = .next t := ⟨_, step_stepped _ (by decide) (by decide)⟩

/-- The hypotheses of RmOperandForms over these bytes. -/
abbrev rmHypotheses (bytes : List Byte) (b0 b1 : Byte) (n : Nat) : Prop :=
  (loaded bytes).Runnable ∧ (loaded bytes).bufRd (loaded bytes).cursor = some b0 ∧
  (loaded bytes).bufRd ((loaded bytes).cursor + 1) = some b1 ∧
  (classify b0 = some .regMemToFromReg ∨ classify b0 = some .immediateToRegMem) ∧
  n = dispBytes (modBits b1) (rmBits b1) ∧
  (loaded bytes).cursor + 2 + n + immBytesAfterRm b0 ≤ (loaded bytes).len

theorem witness_RmOperandForms_register :
    rmHypotheses [0x8A#8, 0xE7#8] 0x8A#8 0xE7#8 0 ∧ modBits 0xE7#8 = 0b11#2 ∧
    rmHypotheses [0xC7#8, 0xC0#8, 0x34#8, 0x12#8] 0xC7#8 0xC0#8 0 ∧ modBits 0xC0#8 = 0b11#2 := by decide

theorem witness_RmOperandForms_direct :
    rmHypotheses [0x89#8, 0x06#8, 0x34#8, 0x12#8] 0x89#8 0x06#8 2 ∧ modBits 0x06#8 = 0b00#2 ∧
    rmBits 0x06#8 = 0b110#3 ∧ rmHypotheses [0xC6#8, 0x06#8, 0x34#8, 0x12#8, 7#8] 0xC6#8 0x06#8 2 := by decide

theorem witness_RmOperandForms_base :
    rmHypotheses [0x8B#8, 0x05#8] 0x8B#8 0x05#8 0 ∧ modBits 0x05#8 = 0b00#2 ∧ rmBits 0x05#8 ≠ 0b110#3 ∧
    rmHypotheses [0x8B#8, 0x07#8] 0x8B#8 0x07#8 0 ∧ rmBits 0x07#8 ≠ 0b110#3 := by decide

theorem witness_RmOperandForms_disp8 :
    rmHypotheses [0x8B#8, 0x46#8, 0xFF#8] 0x8B#8 0x46#8 1 ∧ modBits 0x46#8 = 0b01#2 ∧
    rmHypotheses [0xC6#8, 0x42#8, 0x80#8, 0x80#8] 0xC6#8 0x42#8 1 ∧ modBits 0x42#8 = 0b01#2 := by decide

theorem witness_RmOperandForms_disp16 :
    rmHypotheses [0x88#8, 0x86#8, 0xFF#8, 0xFF#8] 0x88#8 0x86#8 2 ∧ modBits 0x86#8 = 0b10#2 ∧
    rmHypotheses [0xC7#8, 0x85#8, 0xFE#8, 0xFF#8, 0#8, 0x80#8] 0xC7#8 0x85#8 2 := by decide

/-- The hypotheses of a truncation statement over these bytes. -/
abbrev truncationHypotheses (bytes : List Byte) (b0 : Byte) (c : OpcodeClass) : Prop :=
  (loaded bytes).Runnable ∧ (loaded bytes).bufRd (loaded bytes).cursor = some b0 ∧ classify b0 = some c

/-- The opcode byte alone, a displacement one byte short, and one that fits to the last byte. -/
theorem witness_RegMemTruncation :
    truncationHypotheses [0x88#8] 0x88#8 .regMemToFromReg ∧ (loaded [0x88#8]).len ≤ 0 + 1 ∧
    truncationHypotheses [0x8B#8, 0x86#8, 0x34#8] 0x8B#8 .regMemToFromReg ∧
    (loaded [0x8B#8, 0x86#8, 0x34#8]).bufRd 1 = some 0x86#8 ∧
    (loaded [0x8B#8, 0x86#8, 0x34#8]).len + 1 = 0 + 2 + dispBytes (modBits 0x86#8) (rmBits 0x86#8) ∧
    truncationHypotheses [0x8B#8, 0x46#8, 0x05#8] 0x8B#8 .regMemToFromReg ∧
    (loaded [0x8B#8, 0x46#8, 0x05#8]).bufRd 1 = some 0x46#8 ∧
    0 + 2 + dispBytes (modBits 0x46#8) (rmBits 0x46#8) = (loaded [0x8B#8, 0x46#8, 0x05#8]).len := by decide

/-- The opcode byte alone, a displacement cut short, an immediate one byte short, and one that fits. -/
theorem witness_ImmRegMemTruncation :
    truncationHypotheses [0xC6#8] 0xC6#8 .immediateToRegMem ∧ (loaded [0xC6#8]).len ≤ 0 + 1 ∧
    truncationHypotheses [0xC6#8, 0x06#8, 0x34#8] 0xC6#8 .immediateToRegMem ∧
    (loaded [0xC6#8, 0x06#8, 0x34#8]).bufRd 1 = some 0x06#8 ∧
    (loaded [0xC6#8, 0x06#8, 0x34#8]).len < 0 + 2 + dispBytes (modBits 0x06#8) (rmBits 0x06#8) ∧
    truncationHypotheses [0xC7#8, 0xC0#8, 0x34#8] 0xC7#8 .immediateToRegMem ∧
    (loaded [0xC7#8, 0xC0#8, 0x34#8]).bufRd 1 = some 0xC0#8 ∧
    ((loaded [0xC7#8, 0xC0#8, 0x34#8]).len + 1 =
      0 + 2 + dispBytes (modBits 0xC0#8) (rmBits 0xC0#8) + if wordFlag 0xC7#8 then 2 else 1) ∧
    truncationHypotheses [0xC6#8, 0xC4#8, 0xFF#8] 0xC6#8 .immediateToRegMem ∧
    (loaded [0xC6#8, 0xC4#8, 0xFF#8]).bufRd 1 = some 0xC4#8 ∧
    (0 + 2 + dispBytes (modBits 0xC4#8) (rmBits 0xC4#8) + if wordFlag 0xC6#8 then 2 else 1) =
      (loaded [0xC6#8, 0xC4#8, 0xFF#8]).len := by decide

/-- V-TR-14, one byte short, and V-IR-1, which fits. -/
theorem witness_ImmRegTruncation :
    truncationHypotheses [0xB8#8, 0x01#8] 0xB8#8 .immediateToReg ∧
    ((loaded [0xB8#8, 0x01#8]).len + 1 = 0 + 1 + if wordFlagIR 0xB8#8 then 2 else 1) ∧
    truncationHypotheses [0xB0#8, 0x7F#8] 0xB0#8 .immediateToReg ∧
    (0 + 1 + if wordFlagIR 0xB0#8 then 2 else 1) = (loaded [0xB0#8, 0x7F#8]).len := by decide

theorem witness_SizeMarkerByClass :
    (∃ t, step (loaded [0xC6#8, 0xC0#8, 0x05#8]) = .next t ∧
      t.out = [immRegMem (.reg .al) ⟨.w8, 5#16, .byte⟩ 3]) ∧
    (∃ t, step (loaded [0xB4#8, 0x7F#8]) = .next t ∧ t.out = [immReg .ah ⟨.w8, 0x7F#16, .none⟩ 2]) :=
  ⟨⟨_, step_stepped _ (by decide) (by decide), by decide⟩, ⟨_, step_stepped _ (by decide) (by decide), by decide⟩⟩

/-- V-IRM-1 against V-IRM-2: reg fields 000 and 111. -/
theorem witness_IgnoredRegFieldChangesNothing :
    classify ((loaded [0xC6#8, 0x07#8, 0x05#8]).buf.read 0) = some .immediateToRegMem ∧
    (loaded [0xC6#8, 0x07#8, 0x05#8]).buf.wf ∧
    (loaded [0xC6#8, 0x07#8, 0x05#8]).bufRd (0 + 1) = some 0x07#8 ∧
    modBits 0x3F#8 = modBits 0x07#8 ∧ rmBits 0x3F#8 = rmBits 0x07#8 ∧
    0 + 2 + dispBytes (modBits 0x07#8) (rmBits 0x07#8) + immBytes (wordFlag 0xC6#8) =
      (loaded [0xC6#8, 0x07#8, 0x05#8]).len ∧
    ∃ t, step (loaded [0xC6#8, 0x07#8, 0x05#8]) = .next t :=
  ⟨by decide, by decide, by decide, by decide, by decide, by decide, _, step_stepped _ (by decide) (by decide)⟩

/-- The byte just below the cursor and the byte just after the instruction. -/
theorem witness_StepIgnoresBytesOutsideItsInstruction :
    (stepped (loaded [0x90#8, 0xB4#8, 0x7F#8, 0x90#8])).buf.wf ∧
    0 < (stepped (loaded [0x90#8, 0xB4#8, 0x7F#8, 0x90#8])).cursor ∧
    (stepped (loaded [0x90#8, 0xB4#8, 0x7F#8, 0x90#8])).cursor + 2 ≤ 3 ∧
    ∃ t, step (stepped (loaded [0x90#8, 0xB4#8, 0x7F#8, 0x90#8])) = .next t ∧
      t.out = (stepped (loaded [0x90#8, 0xB4#8, 0x7F#8, 0x90#8])).out ++ [immReg .ah ⟨.w8, 0x7F#16, .none⟩ 2] :=
  ⟨by decide, by decide, by decide, _, step_stepped _ (by decide) (by decide), by decide⟩

theorem witness_UnrecognizedByteIsReported :
    (loaded [0x8F#8]).Runnable ∧ (loaded [0x8F#8]).bufRd (loaded [0x8F#8]).cursor = some 0x8F#8 ∧
    classify 0x8F#8 = none := by decide

theorem witness_UnsupportedClassIsReported :
    truncationHypotheses [0xA1#8] 0xA1#8 .memToAcc ∧ truncationHypotheses [0xA3#8] 0xA3#8 .accToMem ∧
    truncationHypotheses [0x8E#8] 0x8E#8 .regMemToSegReg ∧
    truncationHypotheses [0x8C#8] 0x8C#8 .segRegToRegMem := by decide

theorem witness_TruncationEndsTheRun :
    ∃ t, step (loaded [0xB8#8, 0x01#8]) = .next t ∧
      t.out = [.error ⟨.truncatedInstruction, 0, 0xB8#8, some .immediateToReg, 2⟩] :=
  ⟨_, step_stepped _ (by decide) (by decide), by decide⟩

theorem witness_EveryStepMovesForward :
    ∃ t, step (loaded [0x90#8] .legacy) = .next t := ⟨_, step_stepped _ (by decide) (by decide)⟩

theorem witness_EveryRunReachesTerminal :
    (loaded [0#8, 0#8, 0#8]).Runnable ∧ (loaded [0#8, 0#8, 0#8]).cursor ≤ (loaded [0#8, 0#8, 0#8]).len ∧
    (loaded []).Runnable ∧ (loaded []).cursor = (loaded []).len := by decide

/-- A state in the middle of a run, and one at its start. -/
theorem witness_RunsDependOnInputsOnly :
    (loaded [0x90#8, 0x90#8]).buf = (stepped (loaded [0x90#8, 0x90#8])).buf ∧
    (loaded [0x90#8, 0x90#8]).len = (stepped (loaded [0x90#8, 0x90#8])).len ∧
    (loaded [0x90#8, 0x90#8]).params = (stepped (loaded [0x90#8, 0x90#8])).params ∧
    ∃ t, Host.Core.run core 1 (stepped (loaded [0x90#8, 0x90#8])).applyReset = .next t :=
  ⟨by decide, by decide, by decide, _, run_succ_of_next 0 _ _ (step_stepped _ (by decide) (by decide))⟩

/-- The invariant of a state in the middle of a run. -/
theorem inv_stepped : (stepped (loaded [0x90#8, 0xB4#8, 0x7F#8])).Inv :=
  ⟨by decide, by decide, fun _ => by decide, fun _ => by decide⟩

theorem witness_StepKeepsTheInvariant :
    (stepped (loaded [0x90#8, 0xB4#8, 0x7F#8])).Inv ∧
    ∃ t, step (stepped (loaded [0x90#8, 0xB4#8, 0x7F#8])) = .next t :=
  ⟨inv_stepped, _, step_stepped _ (by decide) (by decide)⟩

theorem witness_HostActsKeepTheInvariant : (stepped (loaded [0x90#8, 0xB4#8, 0x7F#8])).Inv := inv_stepped

/-- The output of one step is the walk of one step. -/
theorem walk_stepped : (stepped (loaded [0xB4#8, 0x7F#8, 0x90#8])).OutputIsWalk :=
  ⟨by decide, by decide, rfl⟩

/-- The output of two steps is the walk of two steps. -/
theorem walk_stepped_twice : (stepped (stepped (loaded [0xB4#8, 0x7F#8, 0x90#8]))).OutputIsWalk :=
  ⟨by decide, by decide, by decide, by decide, rfl⟩

theorem witness_StepKeepsTheOutputTheWalk :
    (stepped (loaded [0xB4#8, 0x7F#8, 0x90#8])).OutputIsWalk ∧
    ∃ t, step (stepped (loaded [0xB4#8, 0x7F#8, 0x90#8])) = .next t :=
  ⟨walk_stepped, _, step_stepped _ (by decide) (by decide)⟩

/-- A walk of two records whose second is an error record. -/
theorem witness_RecordsStartInOrder :
    (stepped (stepped (loaded [0xB4#8, 0x7F#8, 0x90#8]))).Runnable ∧
    (stepped (stepped (loaded [0xB4#8, 0x7F#8, 0x90#8]))).OutputIsWalk ∧
    (stepped (stepped (loaded [0xB4#8, 0x7F#8, 0x90#8]))).out[1]? =
      some (.error ⟨.unrecognizedOpcode, 2, 0x90#8, none, 1⟩) :=
  ⟨by decide, walk_stepped_twice, by decide⟩

theorem witness_DecodedRecordsTileTheBuffer :
    (stepped (stepped (loaded [0xB4#8, 0x7F#8, 0x90#8]))).OutputIsWalk ∧
    1 < (stepped (stepped (loaded [0xB4#8, 0x7F#8, 0x90#8]))).out.length ∧
    ∀ r ∈ (stepped (stepped (loaded [0xB4#8, 0x7F#8, 0x90#8]))).out.take 1, ∃ d, r = .decoded d := by
  refine ⟨walk_stepped_twice, by decide, fun r hr => ?_⟩
  rw [show (stepped (stepped (loaded [0xB4#8, 0x7F#8, 0x90#8]))).out.take 1 =
    [immReg .ah ⟨.w8, 0x7F#16, .none⟩ 2] from by decide] at hr
  exact ⟨_, List.mem_singleton.1 hr⟩

/-- The narrowest cursor register for LEN = 3. -/
theorem witness_CursorFitsItsRegister :
    (State.reset.boot [0x90#8, 0x90#8, 0x90#8] ⟨2, 3, false, 2⟩).Inv ∧
    (State.reset.boot [0x90#8, 0x90#8, 0x90#8] ⟨2, 3, false, 2⟩).Runnable ∧
    ∃ t, step (State.reset.boot [0x90#8, 0x90#8, 0x90#8] ⟨2, 3, false, 2⟩) = .next t :=
  ⟨⟨by decide, by decide, fun _ => by decide, fun _ => by decide⟩, by decide, _,
   step_stepped _ (by decide) (by decide)⟩

/-- LEN = 0, and LEN = 1. -/
theorem witness_ResetLeavesTheStartOfARun :
    (loaded []).params.legalFor (loaded []).len = true ∧ (loaded []).len = 0 ∧
    (loaded [0x90#8]).params.legalFor (loaded [0x90#8]).len = true ∧ (loaded [0x90#8]).len ≠ 0 := by decide

theorem witness_BootPresentsTheBuffer :
    Params.legalFor ⟨1, 1, true, 1⟩ [0#8].length = true := by decide

/-- Another byte with an act that restores it, another LEN in a state that is still Scanning, and other parameters. -/
theorem witness_ChangedInputsAreRefusedUntilReset :
    (hostAct (.changeByte 0 1#8) (loaded [0x90#8])).buf ≠ (loaded [0x90#8]).buf ∧
    HostAction.changeByte 0 1#8 ≠ .reset ∧ .reset ∉ [HostAction.changeByte 0 0x90#8] ∧
    (hostAct (.changeLen 2) (loaded [0x90#8])).len ≠ (loaded [0x90#8]).len ∧
    (hostAct (.changeLen 2) (loaded [0x90#8])).Scanning ∧
    (hostAct (.fixParams ⟨2, 3, false, 8⟩) (loaded [0x90#8])).params ≠ (loaded [0x90#8]).params := by decide

theorem witness_PlacedWordRunsNext :
    State.reset.buf.wf ∧ 1 ≤ State.reset.params.fallbackUnrecognized ∧
    1 ≤ State.reset.params.fallbackUnsupported ∧
    decodeTableWord 8 0x8E = some .regMemToSegReg := by decide

/-- Every clause at the two ends of its range. -/
theorem witness_DisplacementValue :
    MemOperand.wf ⟨none, .w16, 0xFFFF#16, true⟩ = true ∧ MemOperand.wf ⟨some .si, .w0, 0, false⟩ = true ∧
    MemOperand.wf ⟨some .si, .w8, 127, false⟩ = true ∧ MemOperand.wf ⟨some .si, .w8, 128, false⟩ = true ∧
    MemOperand.wf ⟨some .si, .w16, 32767, false⟩ = true ∧
    MemOperand.wf ⟨some .si, .w16, 32768, false⟩ = true := by decide

theorem witness_DispSignedReachesNoRecord :
    ∃ t, step (loaded [0x8B#8, 0x46#8, 0xFE#8]) = .next t := ⟨_, step_stepped _ (by decide) (by decide)⟩

/-- A zero displacement of each width, and the least and the greatest others. -/
theorem witness_ZeroDisplacementIsSuppressed :
    MemOperand.wf ⟨some .bp, .w8, 0, false⟩ = true ∧ MemOperand.wf ⟨some .bx, .w0, 0, false⟩ = true ∧
    MemOperand.wf ⟨some .bp, .w16, 0, false⟩ = true ∧ MemOperand.wf ⟨some .bp, .w8, 1, false⟩ = true ∧
    MemOperand.wf ⟨some .bp, .w16, 0xFFFF#16, false⟩ = true := by decide

theorem witness_NegativeDisplacementText :
    MemOperand.wf ⟨some .bp, .w8, 128, false⟩ = true ∧ MemOperand.wf ⟨some .bp, .w8, 255, false⟩ = true ∧
    MemOperand.wf ⟨some .bp, .w16, 32768, false⟩ = true ∧
    MemOperand.wf ⟨some .bp, .w16, 65535, false⟩ = true := by decide

theorem witness_TextDoesNotTellInstructionsApart : Params.legalFor ⟨1, 1, true, 3⟩ 4 = true := by decide

theorem witness_WorkedExamplesOfTheSource : Params.legalFor ⟨2, 3, false, 3⟩ 4 = true := by decide

theorem witness_BusCarriesEveryRecord :
    (stepped (loaded [0x90#8, 0xB4#8, 0x7F#8])).Inv ∧ (stepped (loaded [0x90#8, 0xB4#8, 0x7F#8])).Runnable ∧
    .error ⟨.unrecognizedOpcode, 0, 0x90#8, none, 3⟩ ∈ (stepped (loaded [0x90#8, 0xB4#8, 0x7F#8])).out :=
  ⟨inv_stepped, by decide, by decide⟩

/-- The records of one step with a class and without one. -/
theorem witness_BusRecordCodesAsListed :
    (stepped (loaded [0xA2#8])).out = [.error ⟨.unsupportedVariant, 0, 0xA2#8, some .accToMem, 1⟩] ∧
    (stepped (loaded [0x90#8])).out = [.error ⟨.unrecognizedOpcode, 0, 0x90#8, none, 1⟩] := by decide

end Sys2Proof.Tests
end

/-! PROOFS. Family 10_state.md: the invariant, the frame, the inputs a run depends on, the cursor's width, the bus and
the listed codes. First the facts about the decoder, the records and the bus codes that the obligations rest on. -/

namespace Sys2Proof

/-! ### What the decoder answers -/

/-- Read by format F-RM, an instruction is well formed. -/
theorem decodeRegMem_wf (b0 : Byte) (bs : List Byte) (i : Instr) (rest : List Byte)
    (h : decodeRegMem b0 bs = some (i, rest)) : i.wf = true := by
  cases bs with
  | nil => cases h
  | cons b1 bs =>
    simp only [decodeRegMem, Option.map_eq_some_iff, Prod.exists, Prod.mk.injEq] at h
    obtain ⟨rm, rest', hrm, rfl, -⟩ := h
    obtain ⟨hwf, -, -⟩ := (decodeRM_eq_some _ _ _ _ _ _).1 hrm
    simp [Instr.wf, hwf]

/-- Read by format F-IRM, an instruction is well formed. -/
theorem decodeImmRegMem_wf (b0 : Byte) (bs : List Byte) (i : Instr) (rest : List Byte)
    (h : decodeImmRegMem b0 bs = some (i, rest)) : i.wf = true := by
  cases bs with
  | nil => cases h
  | cons b1 bs =>
    simp only [decodeImmRegMem, Option.bind_eq_some_iff, Option.map_eq_some_iff, Prod.exists,
      Prod.mk.injEq] at h
    obtain ⟨rm, bs', hrm, imm, rest', himm, rfl, -⟩ := h
    obtain ⟨hwf, -, -⟩ := (decodeRM_eq_some _ _ _ _ _ _).1 hrm
    obtain ⟨hfits, -⟩ := (takeImm_eq_some _ _ _ _).1 himm
    simp [Instr.wf, hwf, hfits]

/-- Read by format F-IR, an instruction is well formed. -/
theorem decodeImmReg_wf (b0 : Byte) (bs : List Byte) (i : Instr) (rest : List Byte)
    (h : decodeImmReg b0 bs = some (i, rest)) : i.wf = true := by
  simp only [decodeImmReg, Option.map_eq_some_iff, Prod.exists, Prod.mk.injEq] at h
  obtain ⟨imm, rest', himm, rfl, -⟩ := h
  obtain ⟨hfits, -⟩ := (takeImm_eq_some _ _ _ _).1 himm
  simp [Instr.wf, hfits]

/-- Every instruction the decoder answers is well formed. -/
theorem decode_instr_wf (bs : List Byte) (i : Instr) (rest : List Byte)
    (h : decode bs = .instr i rest) : i.wf = true := by
  cases bs with
  | nil => cases h
  | cons b0 bs =>
    rw [decode_cons] at h
    split at h
    case h_1 => cases h
    case h_2 => exact decodeRegMem_wf b0 bs i rest ((orTruncated_eq_instr _ _ _ _ _).1 h)
    case h_3 => exact decodeImmRegMem_wf b0 bs i rest ((orTruncated_eq_instr _ _ _ _ _).1 h)
    case h_4 => exact decodeImmReg_wf b0 bs i rest ((orTruncated_eq_instr _ _ _ _ _).1 h)
    all_goals
      cases h
      rfl

/-- Only a supported class is reported as truncated (60_exceptions.md R194). -/
theorem decode_truncated_supported (bs : List Byte) (b0 : Byte) (c : OpcodeClass)
    (h : decode bs = .failure (.truncatedInstruction b0 c)) : c.unsupported = false := by
  cases bs with
  | nil => cases h
  | cons b bs =>
    rw [decode_cons] at h
    split at h
    case h_2 | h_3 | h_4 =>
      obtain ⟨-, hf⟩ := (orTruncated_eq_failure _ _ _ _).1 h
      cases hf
      rfl
    all_goals cases h

end Sys2Proof

namespace Sys2Proof.Machine

/-! ### The records a step emits are well formed -/

/-- What mod and rm can name keeps the invariants of a record's operand (10_state.md R35). -/
theorem toOperand_wf (w : Bool) (rm : RmOperand) (h : rm.wf w = true) : rm.toOperand.wf = true := by
  cases rm with
  | reg r => rfl
  | mem m => exact h

/-- An immediate of the size WordFlag selects keeps the invariants of a record's operand, whatever its marker
(10_state.md R35). -/
theorem immOperand_wf (w : Bool) (imm : Word) (k : SizeMarker) (h : immFits w imm = true) :
    (immOperand w imm k).wf = true := by
  cases w with
  | false => simpa [immFits, immOperand, immWidth, Operand.wf, Immediate.wf] using h
  | true => rfl

/-- The checks on a decoded record, one by one (10_state.md R35, R36). -/
theorem DecodedInstruction.wf_iff (d : DecodedInstruction) :
    d.wf = true ↔ d.cls.unsupported = false ∧ d.destination.wf = true ∧ d.source.wf = true ∧
      2 ≤ d.totalLength ∧ d.totalLength ≤ 6 := by
  simp only [DecodedInstruction.wf, Bool.and_eq_true, Bool.not_eq_true', decide_eq_true_eq, and_assoc]

theorem recordRegMem_wf (d w : Bool) (reg : Reg) (rm : RmOperand) (h : rm.wf w = true) :
    (recordRegMem d reg rm).wf = true := by
  have hop := toOperand_wf w rm h
  have hlen : 2 ≤ 2 + rm.bytes ∧ 2 + rm.bytes ≤ 6 := by have := rm.bytes_le; omega
  rw [DecodedInstruction.wf_iff]
  cases d with
  | false => exact ⟨rfl, hop, rfl, hlen⟩
  | true => exact ⟨rfl, rfl, hop, hlen⟩

theorem recordImmRegMem_wf (w : Bool) (rm : RmOperand) (imm : Word) (hrm : rm.wf w = true)
    (himm : immFits w imm = true) : (recordImmRegMem w rm imm).wf = true := by
  have hlen : 2 ≤ 2 + rm.bytes + immBytes w ∧ 2 + rm.bytes + immBytes w ≤ 6 := by
    have := rm.bytes_le
    have := immBytes_le w
    omega
  exact (DecodedInstruction.wf_iff _).2 ⟨rfl, toOperand_wf w rm hrm, immOperand_wf w imm _ himm, hlen⟩

theorem recordImmReg_wf (w : Bool) (reg : Reg) (imm : Word) (himm : immFits w imm = true) :
    (recordImmReg w reg imm).wf = true := by
  have hlen : 2 ≤ 1 + immBytes w ∧ 1 + immBytes w ≤ 6 := by have := immBytes_le w; omega
  exact (DecodedInstruction.wf_iff _).2 ⟨rfl, rfl, immOperand_wf w imm _ himm, hlen⟩

section Scanning
variable {s : State} (hs : s.Scanning)
include hs

/-- An UnrecognizedOpcode record of a scanning state is well formed. -/
theorem errorRecord_unrecognized_wf (b0 : Byte) :
    (s.errorRecord .unrecognizedOpcode b0 none).wf s.len = true := by
  simpa [State.errorRecord, StepRecord.wf, DecodeError.wf] using hs

/-- An UnsupportedVariant record of a scanning state is well formed when it names an unsupported class. -/
theorem errorRecord_unsupported_wf (b0 : Byte) (c : OpcodeClass) (hc : c.unsupported = true) :
    (s.errorRecord .unsupportedVariant b0 (some c)).wf s.len = true := by
  simpa [State.errorRecord, StepRecord.wf, DecodeError.wf, hc] using hs

/-- A TruncatedInstruction record of a scanning state is well formed when it names a supported class. -/
theorem errorRecord_truncated_wf (b0 : Byte) (c : OpcodeClass) (hc : c.unsupported = false) :
    (s.errorRecord .truncatedInstruction b0 (some c)).wf s.len = true := by
  simpa [State.errorRecord, StepRecord.wf, DecodeError.wf, hc] using hs

/-- A well-formed instruction's record is well formed. -/
theorem instrRecord_wf (i : Instr) (hi : i.wf = true) : (instrRecord i s).wf s.len = true := by
  cases i with
  | regMemToFromReg d w reg rm =>
    simp only [Instr.wf, Bool.and_eq_true] at hi
    exact recordRegMem_wf d w reg rm hi.2
  | immediateToRegMem w x rm imm =>
    simp only [Instr.wf, Bool.and_eq_true] at hi
    exact recordImmRegMem_wf w rm imm hi.1 hi.2
  | immediateToReg w reg imm =>
    simp only [Instr.wf, Bool.and_eq_true] at hi
    exact recordImmReg_wf w reg imm hi.2
  | memToAcc w => exact errorRecord_unsupported_wf hs _ _ rfl
  | accToMem w => exact errorRecord_unsupported_wf hs _ _ rfl
  | regMemToSegReg => exact errorRecord_unsupported_wf hs _ _ rfl
  | segRegToRegMem => exact errorRecord_unsupported_wf hs _ _ rfl

/-- The record a step emits is well formed (10_state.md R35 to R37), from every scanning state. -/
theorem stepRecord_wf : (stepRecord s).wf s.len = true := by
  rw [stepRecord]
  cases hd : decode s.fetch with
  | instr i rest => exact instrRecord_wf hs i (decode_instr_wf _ i rest hd)
  | failure f =>
    cases f with
    | noOpcodeByte => exact errorRecord_unrecognized_wf hs 0
    | unrecognizedOpcode b0 => exact errorRecord_unrecognized_wf hs b0
    | truncatedInstruction b0 c =>
      exact errorRecord_truncated_wf hs b0 c (decode_truncated_supported _ b0 c hd)

end Scanning

/-! ### What a step keeps -/

/-- The cursor update never leaves LEN (40_decode_step.md R91, decision D7). -/
theorem nextCursor_le_len (ps : Params) (len p : Nat) (r : StepRecord) : nextCursor ps len p r ≤ len :=
  Nat.min_le_right _ _

/-- Emitting a well-formed record keeps the invariant. -/
theorem State.emit_inv {s : State} {r : StepRecord} (h : s.Inv) (hr : r.wf s.len = true) :
    (s.emit r).Inv where
  bufCanonical := h.bufCanonical
  bufInsideLen := h.bufInsideLen
  cursorInsideLen _ := nextCursor_le_len _ _ _ _
  recordsWellFormed hrun := by
    intro q hq
    rw [State.emit_out, List.mem_append, List.mem_singleton] at hq
    rcases hq with hold | rfl
    · exact h.recordsWellFormed hrun q hold
    · exact hr

/-- The one record of a step is well formed, so the step keeps the invariant. -/
theorem step_inv {s t : State} (h : s.Inv) (hst : step s = .next t) : t.Inv := by
  obtain ⟨-, hs, rfl⟩ := (step_eq_next s t).1 hst
  exact State.emit_inv h (stepRecord_wf hs)

/-- A step leads from a run with a meaning to a run with a meaning. -/
theorem step_runnable {s t : State} (hst : step s = .next t) : t.Runnable := by
  obtain ⟨hrun, -, rfl⟩ := (step_eq_next s t).1 hst
  exact hrun

/-- Settles O32: a step emits one well-formed record (`stepRecord_wf`) and clamps the cursor to LEN
(`State.emit_inv`). -/
theorem stepKeepsTheInvariant : Obligations.StepKeepsTheInvariant :=
  fun _ _ h hst => step_inv h hst

/-- Settles O18: a step is the emission of its record. -/
theorem stepWritesOnlyCursorAndOutput : Obligations.StepWritesOnlyCursorAndOutput := by
  intro s t hst
  obtain ⟨-, -, rfl⟩ := (step_eq_next s t).1 hst
  exact ⟨s.emit_keptBy _, stepRecord s, rfl, by simp [State.lastRecord]⟩

/-- Settles O12: an instruction's meaning is the emission of its record. -/
theorem everyInstructionKeepsTheFrame : Obligations.EveryInstructionKeepsTheFrame :=
  fun i s => ⟨_, instrRecord i s, exec_eq_emit i s, rfl, s.emit_keptBy _⟩

/-! ### What a run depends on -/

/-- The record of the next step depends on the buffer, LEN and the cursor only. -/
theorem stepRecord_congr {s s' : State} (hbuf : s'.buf = s.buf) (hlen : s'.len = s.len)
    (hcur : s'.cursor = s.cursor) : stepRecord s' = stepRecord s := by
  have hfetch : s'.fetch = s.fetch := by simp only [State.fetch, hbuf, hlen, hcur]
  have herr : ∀ k b0 c, s'.errorRecord k b0 c = s.errorRecord k b0 c := by
    intro k b0 c; simp only [State.errorRecord, hlen, hcur]
  rw [stepRecord, stepRecord, hfetch]
  cases decode s.fetch with
  | instr i rest => cases i <;> simp only [instrRecord, herr]
  | failure f => cases f <;> simp only [failureRecord, herr]

/-- The state with another history of earlier runs (the model's own field `past`, log entry 6). -/
def State.withPast (s : State) (p : List StepRecord) : State := { s with past := p }

/-- The history of earlier runs takes no part in a step. -/
theorem step_withPast {s t : State} (p : List StepRecord) (h : step s = .next t) :
    step (s.withPast p) = .next (t.withPast p) := by
  obtain ⟨hrun, hscan, rfl⟩ := (step_eq_next s t).1 h
  have hrec : stepRecord (s.withPast p) = stepRecord s := stepRecord_congr rfl rfl rfl
  rw [step_of_enabled (s.withPast p) hrun hscan, hrec]
  rfl

/-- The history of earlier runs takes no part in a run. -/
theorem run_withPast (p : List StepRecord) (k : Nat) (s t : State) (h : Host.Core.run core k s = .next t) :
    Host.Core.run core k (s.withPast p) = .next (t.withPast p) := by
  induction k generalizing s with
  | zero => cases h; rfl
  | succ k ih =>
    obtain ⟨u, hu, hrest⟩ := run_succ_eq_next k s t h
    rw [run_succ_of_next k _ _ (step_withPast p hu)]
    exact ih u hrest

/-- After reset, states with the same inputs differ in the history of earlier runs only. -/
theorem applyReset_eq_withPast {s s' : State} (hbuf : s'.buf = s.buf) (hlen : s'.len = s.len)
    (hpar : s'.params = s.params) : s'.applyReset = s.applyReset.withPast (s'.past ++ s'.out) := by
  simp only [State.applyReset, State.withPast, hbuf, hlen, hpar]

/-- Settles O31: the two states after reset differ in their history only, which takes no part in a run. -/
theorem runsDependOnInputsOnly : Obligations.RunsDependOnInputsOnly := by
  intro s s' k t hbuf hlen hpar h
  rw [applyReset_eq_withPast hbuf hlen hpar]
  exact ⟨_, run_withPast _ k _ t h, rfl, rfl⟩

/-! ### The cursor's register -/

/-- In a run with a meaning LEN fits in CURSOR_BITS bits (00_scope.md R9). -/
theorem len_lt_of_runnable {s : State} (h : s.Runnable) : s.len < 2 ^ s.params.cursorBits := by
  obtain ⟨-, hlegal⟩ := h
  simp only [Params.legalFor, Bool.and_eq_true, decide_eq_true_eq] at hlegal
  exact hlegal.2

/-- The invariant puts the cursor of a run with a meaning in its register (10_state.md R21, decision D4). -/
theorem cursor_lt_of_inv {s : State} (h : s.Inv) (hrun : s.Runnable) : s.cursor < 2 ^ s.params.cursorBits :=
  Nat.lt_of_le_of_lt (h.cursorInsideLen hrun.1) (len_lt_of_runnable hrun)

/-- Settles O39: a step keeps both the invariant and that the run has a meaning. -/
theorem cursorFitsItsRegister : Obligations.CursorFitsItsRegister :=
  fun _ h hrun => ⟨cursor_lt_of_inv h hrun, fun _ hst => cursor_lt_of_inv (step_inv h hst) (step_runnable hst)⟩

/-! ### The bus -/

@[simp] theorem classOfCode_classCode (c : OpcodeClass) : classOfCode (classCode c) = some c := by
  cases c <;> rfl

@[simp] theorem dispWidthOfCode_dispWidthCode (w : DispWidth) : dispWidthOfCode (dispWidthCode w) = some w := by
  cases w <;> rfl

@[simp] theorem markerOfCode_markerCode (k : SizeMarker) : markerOfCode (markerCode k) = some k := by
  cases k <;> rfl

@[simp] theorem regOfId_regId (r : Reg) : regOfId (regId r) = r := by
  cases r <;> rfl

/-- The operand of a well-formed record reads back from its signals: `base = None` is what is_direct_address says
(10_state.md R35, R43). -/
theorem operandOfBus_operandToBus (o : Operand) (h : o.wf = true) : operandOfBus (operandToBus o) = some o := by
  cases o with
  | reg r => simp [operandToBus, operandOfBus]
  | mem m =>
    obtain ⟨base, width, raw, direct⟩ := m
    simp only [Operand.wf, MemOperand.wf, MemOperand.directHasNoBase, Bool.and_eq_true, beq_iff_eq] at h
    obtain ⟨⟨⟨hdirect, -⟩, -⟩, -⟩ := h
    subst hdirect
    cases base <;> simp [operandToBus, operandOfBus, baseCode]
  | imm i =>
    obtain ⟨width, raw, marker⟩ := i
    cases width <;> simp [operandToBus, operandOfBus, immWidthCode]

/-- A well-formed decoded record reads back: its length fits in three bits (10_state.md R36, R43). -/
theorem decoded_ofBus_toBus (cb : Nat) (d : DecodedInstruction) (h : d.wf = true) :
    recordOfBus (recordToBus cb (.decoded d)) = some (.decoded d) := by
  obtain ⟨cls, dst, src, n⟩ := d
  obtain ⟨-, hdst, hsrc, -, hmax⟩ := (DecodedInstruction.wf_iff _).1 h
  have hdst := operandOfBus_operandToBus dst hdst
  have hsrc := operandOfBus_operandToBus src hsrc
  have hn : n % 8 = n := Nat.mod_eq_of_lt (Nat.lt_of_le_of_lt hmax (by decide))
  simp [recordToBus, recordOfBus, hdst, hsrc, hn]

/-- An error record's place and count read back when they fit in CURSOR_BITS bits (10_state.md R43). -/
theorem errorOfBus_recordToBus (cb : Nat) (e : DecodeError) (hstart : e.start < 2 ^ cb)
    (havail : e.available < 2 ^ cb) :
    errorOfBus (recordToBus cb (.error e)) e.kind e.cls = .error e := by
  simp [errorOfBus, recordToBus, Nat.mod_eq_of_lt hstart, Nat.mod_eq_of_lt havail]

/-- A well-formed error record reads back: its place and count are at most LEN, and its kind says whether it has a
class (10_state.md R37, 60_exceptions.md R191). -/
theorem error_ofBus_toBus (cb len : Nat) (hcb : len < 2 ^ cb) (e : DecodeError) (h : e.wf len = true) :
    recordOfBus (recordToBus cb (.error e)) = some (.error e) := by
  simp only [DecodeError.wf, Bool.and_eq_true, decide_eq_true_eq] at h
  obtain ⟨⟨hstart, havail⟩, hcls⟩ := h
  have hback := errorOfBus_recordToBus cb e (by omega) (by omega)
  obtain ⟨kind, start, b0, cls, available⟩ := e
  cases kind with
  | unrecognizedOpcode =>
    cases cls with
    | none => exact congrArg some hback
    | some c => cases hcls
  | unsupportedVariant =>
    cases cls with
    | none => cases hcls
    | some c => exact (congrArg (Option.map _) (classOfCode_classCode c)).trans (congrArg some hback)
  | truncatedInstruction =>
    cases cls with
    | none => cases hcls
    | some c => exact (congrArg (Option.map _) (classOfCode_classCode c)).trans (congrArg some hback)

/-- Every well-formed record of a buffer whose length fits in CURSOR_BITS bits reads back from its signals. -/
theorem recordOfBus_recordToBus (cb len : Nat) (hcb : len < 2 ^ cb) (r : StepRecord) (h : r.wf len = true) :
    recordOfBus (recordToBus cb r) = some r := by
  cases r with
  | decoded d => exact decoded_ofBus_toBus cb d h
  | error e => exact error_ofBus_toBus cb len hcb e h

/-- Settles O54: the invariant makes every record of the run well formed, and LEN fits in CURSOR_BITS bits. -/
theorem busCarriesEveryRecord : Obligations.BusCarriesEveryRecord :=
  fun s h hrun r hr =>
    recordOfBus_recordToBus _ s.len (len_lt_of_runnable hrun) r (h.recordsWellFormed hrun.1 r hr)

/-! ### Tables and codes as the spec lists them -/

/-- Settles O2, by evaluating the table. -/
theorem registerTableAsListed : Obligations.RegisterTableAsListed := ⟨rfl, rfl⟩

/-- Settles O55, by evaluating the table. -/
theorem effectiveAddressTableAsListed : Obligations.EffectiveAddressTableAsListed := rfl

/-- A one-bit signal of a truth value. -/
theorem ofBool_eq_ite (b : Bool) : BitVec.ofBool b = if b then 1 else 0 := by
  cases b <;> rfl

/-- Settles O56: each signal is read off `operandToBus`, code by code. -/
theorem busOperandCodesAsListed : Obligations.BusOperandCodesAsListed :=
  ⟨fun _ => rfl, fun _ => rfl, fun _ => rfl, rfl, fun _ _ _ => rfl, fun _ _ _ => rfl,
    fun m => ⟨rfl, ofBool_eq_ite m.isDirectAddress⟩, fun _ _ => rfl, fun _ _ => rfl, fun _ => rfl⟩

/-- The class signal of an error record that names a class, and of one that names none (log entry 15). -/
theorem recordToBus_error_cls (cb : Nat) (e : DecodeError) :
    (recordToBus cb (.error e)).cls = classSignal e.cls := rfl

/-- Settles O57: each signal is read off `recordToBus`, kind by kind. -/
theorem busRecordCodesAsListed : Obligations.BusRecordCodesAsListed := by
  refine ⟨fun _ _ _ _ _ => rfl, rfl, fun _ _ _ _ _ => rfl, fun cb e => ⟨?_, ?_, rfl, rfl, rfl, rfl, rfl, rfl⟩⟩
  · intro c hc
    rw [recordToBus_error_cls, hc, classSignal]
  · intro hc
    rw [recordToBus_error_cls, hc, classSignal]

end Sys2Proof.Machine

/-! PROOFS. Family 20_memory.md: the bounded little-endian read, truncation as an encoding cut short, and the
bytes a step does not depend on. First that decoding and encoding are inverse to each other, on which the last two
rest. -/

namespace Sys2Proof

/-! ### What decodes to an instruction is its encoding -/

/-- `DecodeRM` after a mod-reg-rm byte reads the operand whose fields that byte holds, and leaves what follows the
operand's bytes. -/
theorem decodeRM_eq_some_modRegRm (b1 : Byte) (w : Bool) (bs : List Byte) (rm : RmOperand) (rest : List Byte) :
    decodeRM (modBits b1) (rmBits b1) w bs = some (rm, rest) ↔
      rm.wf w = true ∧ b1 :: bs = encodeModRegRm (regBits b1) rm ++ rest := by
  rw [decodeRM_eq_some, encodeModRegRm, List.cons_append, List.cons.injEq]
  refine and_congr_right fun _ => and_congr_left fun _ => ?_
  constructor
  · intro hf
    rw [hf, fields_append]
  · intro hb
    rw [hb, modBits_append, rmBits_append]

/-- Format F-RM reads back what it encodes. -/
theorem decodeRegMem_encode (d w : Bool) (reg : Reg) (rm : RmOperand) (rest : List Byte)
    (h : (Instr.regMemToFromReg d w reg rm).wf = true) :
    decodeRegMem (opcodeByte (.regMemToFromReg d w reg rm)) (encodeModRegRm (regCode reg) rm ++ rest) =
      some (.regMemToFromReg d w reg rm, rest) := by
  simp only [Instr.wf, Bool.and_eq_true, beq_iff_eq] at h
  obtain ⟨hreg, hrm⟩ := h
  have hread := (decodeRM_eq_some (rmFields rm).1 (rmFields rm).2 w _ rm rest).2 ⟨hrm, rfl, rfl⟩
  simp [decodeRegMem, opcodeByte, encodeModRegRm, hread, regTable_regCode w reg hreg]

/-- Format F-IRM reads back what it encodes, the ignored bits among it (log entry 12). -/
theorem decodeImmRegMem_encode (w : Bool) (x : BitVec 3) (rm : RmOperand) (imm : Word) (rest : List Byte)
    (h : (Instr.immediateToRegMem w x rm imm).wf = true) :
    decodeImmRegMem (opcodeByte (.immediateToRegMem w x rm imm))
        (encodeModRegRm x rm ++ encodeImm w imm ++ rest) =
      some (.immediateToRegMem w x rm imm, rest) := by
  simp only [Instr.wf, Bool.and_eq_true] at h
  obtain ⟨hrm, himm⟩ := h
  have hread := (decodeRM_eq_some (rmFields rm).1 (rmFields rm).2 w _ rm (encodeImm w imm ++ rest)).2
    ⟨hrm, rfl, rfl⟩
  have htake := (takeImm_eq_some w _ imm rest).2 ⟨himm, rfl⟩
  simp [decodeImmRegMem, opcodeByte, encodeModRegRm, hread, htake]

/-- Format F-IR reads back what it encodes. -/
theorem decodeImmReg_encode (w : Bool) (reg : Reg) (imm : Word) (rest : List Byte)
    (h : (Instr.immediateToReg w reg imm).wf = true) :
    decodeImmReg (opcodeByte (.immediateToReg w reg imm)) (encodeImm w imm ++ rest) =
      some (.immediateToReg w reg imm, rest) := by
  simp only [Instr.wf, Bool.and_eq_true, beq_iff_eq] at h
  obtain ⟨hreg, himm⟩ := h
  have htake := (takeImm_eq_some w _ imm rest).2 ⟨himm, rfl⟩
  simp [decodeImmReg, opcodeByte, htake, regTable_regCode w reg hreg]

/-- A well-formed instruction's bytes decode to it, whatever follows them. -/
theorem decode_encode (i : Instr) (rest : List Byte) (h : i.wf = true) :
    decode (encode i ++ rest) = .instr i rest := by
  rw [encode.eq_def, List.cons_append, decode_cons, classify_opcodeByte]
  cases i with
  | regMemToFromReg d w reg rm => exact (orTruncated_eq_instr _ _ _ _ _).2 (decodeRegMem_encode d w reg rm rest h)
  | immediateToRegMem w x rm imm =>
    exact (orTruncated_eq_instr _ _ _ _ _).2 (decodeImmRegMem_encode w x rm imm rest h)
  | immediateToReg w reg imm => exact (orTruncated_eq_instr _ _ _ _ _).2 (decodeImmReg_encode w reg imm rest h)
  | memToAcc w => simp [Instr.cls, opcodeByte]
  | accToMem w => simp [Instr.cls, opcodeByte]
  | regMemToSegReg => rfl
  | segRegToRegMem => rfl

/-- What format F-RM reads is the instruction's encoding. -/
theorem encode_of_decodeRegMem (b0 : Byte) (bs : List Byte) (i : Instr) (rest : List Byte)
    (hc : classify b0 = some .regMemToFromReg) (h : decodeRegMem b0 bs = some (i, rest)) :
    b0 :: bs = encode i ++ rest := by
  cases bs with
  | nil => cases h
  | cons b1 bs =>
    simp only [decodeRegMem, Option.map_eq_some_iff, Prod.exists, Prod.mk.injEq] at h
    obtain ⟨rm, _, hrm, rfl, rfl⟩ := h
    obtain ⟨-, hbytes⟩ := (decodeRM_eq_some_modRegRm _ _ _ _ _).1 hrm
    obtain ⟨hop, -⟩ := opcode_of_classify b0
    simp [encode, opcodeByte, hbytes, ← hop hc]

/-- What format F-IRM reads is the instruction's encoding. -/
theorem encode_of_decodeImmRegMem (b0 : Byte) (bs : List Byte) (i : Instr) (rest : List Byte)
    (hc : classify b0 = some .immediateToRegMem) (h : decodeImmRegMem b0 bs = some (i, rest)) :
    b0 :: bs = encode i ++ rest := by
  cases bs with
  | nil => cases h
  | cons b1 bs =>
    simp only [decodeImmRegMem, Option.bind_eq_some_iff, Option.map_eq_some_iff, Prod.exists,
      Prod.mk.injEq] at h
    obtain ⟨rm, bs', hrm, imm, _, himm, rfl, rfl⟩ := h
    obtain ⟨-, hdisp⟩ := (decodeRM_eq_some_modRegRm _ _ _ _ _).1 hrm
    obtain ⟨-, himm⟩ := (takeImm_eq_some _ _ _ _).1 himm
    obtain ⟨-, hop, -⟩ := opcode_of_classify b0
    simp [encode, opcodeByte, hdisp, himm, ← hop hc]

/-- What format F-IR reads is the instruction's encoding. -/
theorem encode_of_decodeImmReg (b0 : Byte) (bs : List Byte) (i : Instr) (rest : List Byte)
    (hc : classify b0 = some .immediateToReg) (h : decodeImmReg b0 bs = some (i, rest)) :
    b0 :: bs = encode i ++ rest := by
  simp only [decodeImmReg, Option.map_eq_some_iff, Prod.exists, Prod.mk.injEq] at h
  obtain ⟨imm, _, himm, rfl, rfl⟩ := h
  obtain ⟨-, hbytes⟩ := (takeImm_eq_some _ _ _ _).1 himm
  obtain ⟨-, -, hop, -⟩ := opcode_of_classify b0
  simp [encode, opcodeByte, hbytes, ← hop hc]

/-- What decodes to an instruction is that instruction's encoding and the bytes left over. -/
theorem encode_of_decode (bs : List Byte) (i : Instr) (rest : List Byte) (h : decode bs = .instr i rest) :
    bs = encode i ++ rest := by
  cases bs with
  | nil => cases h
  | cons b0 bs =>
    obtain ⟨-, -, -, hMemToAcc, hAccToMem, hToSeg, hFromSeg⟩ := opcode_of_classify b0
    rw [decode_cons] at h
    cases hc : classify b0 with
    | none => rw [hc] at h; cases h
    | some c =>
      rw [hc] at h
      cases c with
      | regMemToFromReg => exact encode_of_decodeRegMem b0 bs i rest hc ((orTruncated_eq_instr _ _ _ _ _).1 h)
      | immediateToRegMem => exact encode_of_decodeImmRegMem b0 bs i rest hc ((orTruncated_eq_instr _ _ _ _ _).1 h)
      | immediateToReg => exact encode_of_decodeImmReg b0 bs i rest hc ((orTruncated_eq_instr _ _ _ _ _).1 h)
      | memToAcc => cases h; exact congrArg (· :: rest) (hMemToAcc hc)
      | accToMem => cases h; exact congrArg (· :: rest) (hAccToMem hc)
      | regMemToSegReg => cases h; exact congrArg (· :: rest) (hToSeg hc)
      | segRegToRegMem => cases h; exact congrArg (· :: rest) (hFromSeg hc)

/-- The decoder answers an instruction exactly on its encoding, with the bytes after it left over. -/
theorem decode_eq_instr (bs : List Byte) (i : Instr) (rest : List Byte) :
    decode bs = .instr i rest ↔ i.wf = true ∧ bs = encode i ++ rest := by
  constructor
  · exact fun h => ⟨decode_instr_wf bs i rest h, encode_of_decode bs i rest h⟩
  · rintro ⟨hwf, rfl⟩
    exact decode_encode i rest hwf

/-- The opcode byte an encoding begins with is of the instruction's class. -/
theorem classify_of_encode_eq (i : Instr) (b0 : Byte) (bs : List Byte) (h : encode i = b0 :: bs) :
    classify b0 = some i.cls := by
  have hb0 : opcodeByte i = b0 := List.head_eq_of_cons_eq h
  rw [← hb0, classify_opcodeByte]

/-! ### Truncation -/

/-- An opcode byte of some class fails to decode only by being truncated. -/
theorem failure_of_classify (b0 : Byte) (bs : List Byte) (c : OpcodeClass) (f : DecodeFailure)
    (hc : classify b0 = some c) (h : decode (b0 :: bs) = .failure f) : f = .truncatedInstruction b0 c := by
  rw [decode_cons, hc] at h
  cases c with
  | regMemToFromReg | immediateToRegMem | immediateToReg =>
    obtain ⟨-, hf⟩ := (orTruncated_eq_failure _ _ _ _).1 h
    exact hf
  | memToAcc | accToMem | regMemToSegReg | segRegToRegMem => cases h

/-- A truncated decode names the class of its opcode byte. -/
theorem classify_of_truncated (b0 : Byte) (bs : List Byte) (c : OpcodeClass)
    (h : decode (b0 :: bs) = .failure (.truncatedInstruction b0 c)) : classify b0 = some c := by
  cases hc : classify b0 with
  | none => rw [decode_cons, hc] at h; cases h
  | some c' =>
    have hf := failure_of_classify b0 bs c' _ hc h
    injection hf with _ hcc
    rw [hcc]

/-- Format F-RM lacks a field only when fewer than 3 bytes follow its opcode byte. -/
theorem length_of_decodeRegMem_none (b0 : Byte) (bs : List Byte) (h : decodeRegMem b0 bs = none) :
    bs.length < 3 := by
  cases bs with
  | nil => simp
  | cons b1 bs =>
    rw [decodeRegMem, Option.map_eq_none_iff, decodeRM_eq_none] at h
    have := dispBytes_le (modBits b1) (rmBits b1)
    rw [List.length_cons]
    omega

/-- Format F-IRM lacks a field only when fewer than 5 bytes follow its opcode byte. -/
theorem length_of_decodeImmRegMem_none (b0 : Byte) (bs : List Byte) (h : decodeImmRegMem b0 bs = none) :
    bs.length < 5 := by
  cases bs with
  | nil => simp
  | cons b1 bs =>
    have hdisp := dispBytes_le (modBits b1) (rmBits b1)
    rw [List.length_cons]
    cases hrm : decodeRM (modBits b1) (rmBits b1) (wordFlag b0) bs with
    | none => have := (decodeRM_eq_none _ _ _ _).1 hrm; omega
    | some p =>
      obtain ⟨rm, bs'⟩ := p
      obtain ⟨-, -, hbytes⟩ := (decodeRM_eq_some _ _ _ _ _ _).1 hrm
      have himm : bs'.length < immBytes (wordFlag b0) := by
        simpa [decodeImmRegMem, hrm, takeImm_eq_none] using h
      have hrmLen := rm.bytes_le
      have himmLen := immBytes_le (wordFlag b0)
      rw [hbytes, List.length_append, encodeDisp_length]
      omega

/-- Format F-IR lacks its immediate only when fewer than 2 bytes follow its opcode byte. -/
theorem length_of_decodeImmReg_none (b0 : Byte) (bs : List Byte) (h : decodeImmReg b0 bs = none) :
    bs.length < 2 := by
  rw [decodeImmReg, Option.map_eq_none_iff, takeImm_eq_none] at h
  have := immBytes_le (wordFlagIR b0)
  omega

/-- A truncated decode had fewer bytes than the longest instruction has (00_scope.md R11). -/
theorem length_of_truncated (b0 : Byte) (bs : List Byte) (c : OpcodeClass)
    (h : decode (b0 :: bs) = .failure (.truncatedInstruction b0 c)) : bs.length < 5 := by
  have hc := classify_of_truncated b0 bs c h
  rw [decode_cons, hc] at h
  cases c with
  | regMemToFromReg =>
    have := length_of_decodeRegMem_none b0 bs ((orTruncated_eq_failure _ _ _ _).1 h).1
    omega
  | immediateToRegMem => exact length_of_decodeImmRegMem_none b0 bs ((orTruncated_eq_failure _ _ _ _).1 h).1
  | immediateToReg =>
    have := length_of_decodeImmReg_none b0 bs ((orTruncated_eq_failure _ _ _ _).1 h).1
    omega
  | memToAcc | accToMem | regMemToSegReg | segRegToRegMem => cases h

/-- With 5 more bytes after them, the bytes of a truncated decode decode to an instruction. -/
theorem decode_append_of_truncated (b0 : Byte) (bs more : List Byte) (c : OpcodeClass)
    (h : decode (b0 :: bs) = .failure (.truncatedInstruction b0 c)) (hmore : 5 ≤ more.length) :
    ∃ i rest, decode (b0 :: (bs ++ more)) = .instr i rest := by
  cases hd : decode (b0 :: (bs ++ more)) with
  | instr i rest => exact ⟨i, rest, rfl⟩
  | failure f =>
    obtain rfl := failure_of_classify b0 _ c f (classify_of_truncated b0 bs c h) hd
    have hlen := length_of_truncated b0 _ c hd
    rw [List.length_append] at hlen
    omega

/-- The bytes of a truncated decode begin an encoding that they do not fill. The encoding is the one read when
enough zeros stand after them. -/
theorem exists_encode_of_truncated (b0 : Byte) (bs : List Byte) (c : OpcodeClass)
    (h : decode (b0 :: bs) = .failure (.truncatedInstruction b0 c)) :
    ∃ i more, i.wf = true ∧ more ≠ [] ∧ encode i = b0 :: bs ++ more := by
  obtain ⟨i, rest, hi⟩ := decode_append_of_truncated b0 bs (List.replicate 5 0) c h (by simp)
  obtain ⟨hwf, hbytes⟩ := (decode_eq_instr _ _ _).1 hi
  have notFilled : ∀ left, b0 :: bs ≠ encode i ++ left := by
    intro left heq
    rw [(decode_eq_instr _ i left).2 ⟨hwf, heq⟩] at h
    cases h
  rw [← List.cons_append] at hbytes
  rcases List.append_eq_append_iff.1 hbytes with ⟨more, henc, -⟩ | ⟨left, heq, -⟩
  · refine ⟨i, more, hwf, ?_, henc⟩
    rintro rfl
    exact notFilled [] (by rw [henc]; simp)
  · exact absurd heq (notFilled left)

/-- An encoding cut short does not decode: no encoding begins another. -/
theorem decode_cutEncoding_ne_instr (i j : Instr) (bs more rest : List Byte) (hi : i.wf = true)
    (hmore : more ≠ []) (henc : encode i = bs ++ more) : decode bs ≠ .instr j rest := by
  intro hj
  obtain ⟨hwf, rfl⟩ := (decode_eq_instr _ _ _).1 hj
  have hself : decode (encode i ++ []) = .instr i [] := decode_encode i [] hi
  rw [List.append_nil, henc, List.append_assoc, decode_encode j (rest ++ more) hwf] at hself
  injection hself with _ hnil
  exact hmore (List.append_eq_nil_iff.1 hnil).2

/-- Settles O7. A truncated decode's bytes begin an encoding (`exists_encode_of_truncated`); an encoding cut short does
not decode (`decode_cutEncoding_ne_instr`), and its opcode byte has a class, so it is truncated. -/
theorem truncatedExactlyOnProperPrefixes : Obligations.TruncatedExactlyOnProperPrefixes := by
  intro b0 bs c
  constructor
  · intro h
    obtain ⟨i, more, hwf, hmore, henc⟩ := exists_encode_of_truncated b0 bs c h
    have hcls : some i.cls = some c :=
      (classify_of_encode_eq i b0 _ henc).symm.trans (classify_of_truncated b0 bs c h)
    exact ⟨i, more, hwf, Option.some.inj hcls, hmore, henc⟩
  · rintro ⟨i, more, hwf, rfl, hmore, henc⟩
    cases hd : decode (b0 :: bs) with
    | instr j rest => exact absurd hd (decode_cutEncoding_ne_instr i j _ more rest hwf hmore henc)
    | failure f =>
      rw [failure_of_classify b0 bs i.cls f (classify_of_encode_eq i b0 _ henc) hd]

/-- A well-formed instruction's encoding has the length its total_length says (30_encoding.md R80). -/
theorem encode_length (i : Instr) (h : i.wf = true) : (encode i).length = i.totalLength := by
  have hlen : Laws.EncodedLength.Statement i := by
    cases i with
    | regMemToFromReg d w reg rm => exact Laws.EncodedLength.regMemToFromReg d w reg rm
    | immediateToRegMem w x rm imm => exact Laws.EncodedLength.immediateToRegMem w x rm imm
    | immediateToReg w reg imm => exact Laws.EncodedLength.immediateToReg w reg imm
    | memToAcc w => exact Laws.EncodedLength.memToAcc w
    | accToMem w => exact Laws.EncodedLength.accToMem w
    | regMemToSegReg => exact Laws.EncodedLength.regMemToSegReg
    | segRegToRegMem => exact Laws.EncodedLength.segRegToRegMem
  exact (hlen h).1

end Sys2Proof

namespace Sys2Proof.Machine

/-! ### Reads of the buffer -/

/-- A one-byte read by its bound (20_memory.md R47, R48). -/
theorem memRead_one (s : State) (a : Nat) :
    s.memRead a 1 = if s.len < a + 1 then none else some (zext16 (s.buf.read a)) := rfl

/-- A two-byte read by its bound (20_memory.md R47, R48). -/
theorem memRead_two (s : State) (a : Nat) :
    s.memRead a 2 = if s.len < a + 2 then none else some (joinLE (s.buf.read a) (s.buf.read (a + 1))) := rfl

theorem memRead_one_eq_some (s : State) (a : Nat) (v : Word) :
    s.memRead a 1 = some v ↔ a + 1 ≤ s.len ∧ v.toNat = (s.buf.read a).toNat := by
  rw [memRead_one, Option.ite_none_left_eq_some, Nat.not_lt, Option.some.injEq, ← BitVec.toNat_inj,
    zext16_toNat, eq_comm (a := v.toNat)]

theorem memRead_two_eq_some (s : State) (a : Nat) (v : Word) :
    s.memRead a 2 = some v ↔
      a + 2 ≤ s.len ∧ v.toNat = (s.buf.read a).toNat + 256 * (s.buf.read (a + 1)).toNat := by
  rw [memRead_two, Option.ite_none_left_eq_some, Nat.not_lt, Option.some.injEq, ← BitVec.toNat_inj,
    joinLE_toNat, eq_comm (a := v.toNat)]

theorem memRead_one_eq_none (s : State) (a : Nat) : s.memRead a 1 = none ↔ s.len < a + 1 := by
  simp [memRead_one]

theorem memRead_two_eq_none (s : State) (a : Nat) : s.memRead a 2 = none ↔ s.len < a + 2 := by
  simp [memRead_two]

/-- Settles O44: the bounds and the byte order of each width are those of `MemRead`'s lemmas. -/
theorem memReadIsBoundedAndLittleEndian : Obligations.MemReadIsBoundedAndLittleEndian :=
  fun s a v => ⟨memRead_one_eq_some s a v, memRead_two_eq_some s a v, memRead_one_eq_none s a,
    memRead_two_eq_none s a⟩

/-! ### The bytes a step depends on -/

/-- A window is its first bytes and the window after them. -/
theorem Memory.bytesFrom_add (m : Memory) (a n k : Nat) :
    m.bytesFrom a (n + k) = m.bytesFrom a n ++ m.bytesFrom (a + n) k := by
  induction n generalizing a with
  | zero => simp [Memory.bytesFrom]
  | succ n ih =>
    rw [Nat.add_right_comm, Memory.bytesFrom, Memory.bytesFrom, ih, List.cons_append]
    simp only [Nat.add_assoc, Nat.add_comm 1 n]

/-- An instruction's record reads nothing of the buffer. -/
theorem instrRecord_withBuf (i : Instr) (s : State) (m : Memory) :
    instrRecord i { s with buf := m } = instrRecord i s := by
  cases i <;> rfl

/-- A Decoded record counts the bytes of the instruction that emitted it (30_encoding.md R80). -/
theorem totalLength_of_instrRecord (i : Instr) (s : State) (d : DecodedInstruction)
    (h : instrRecord i s = .decoded d) : d.totalLength = i.totalLength := by
  cases i with
  | regMemToFromReg | immediateToRegMem | immediateToReg => cases h; rfl
  | memToAcc | accToMem | regMemToSegReg | segRegToRegMem => cases h

/-- A step that emits a Decoded record decoded an instruction of that record's length. -/
theorem decode_of_stepRecord_decoded (s : State) (d : DecodedInstruction) (h : stepRecord s = .decoded d) :
    ∃ i rest, decode s.fetch = .instr i rest ∧ i.totalLength = d.totalLength := by
  rw [stepRecord] at h
  cases hd : decode s.fetch with
  | instr i rest =>
    rw [hd] at h
    exact ⟨i, rest, rfl, (totalLength_of_instrRecord i s d h).symm⟩
  | failure f =>
    rw [hd] at h
    cases f <;> cases h

/-- A buffer that reads alike on a decoded instruction's bytes decodes to the same instruction. -/
theorem decode_fetch_withBuf (s : State) (m : Memory) (i : Instr) (rest : List Byte)
    (hd : decode s.fetch = .instr i rest)
    (hm : ∀ k, k < i.totalLength → m.read (s.cursor + k) = s.buf.read (s.cursor + k)) :
    ∃ rest', decode (State.fetch { s with buf := m }) = .instr i rest' := by
  obtain ⟨hwf, hbytes⟩ := (decode_eq_instr _ _ _).1 hd
  have hlen := encode_length i hwf
  have hfetch : s.fetch.length = i.totalLength + rest.length := by rw [hbytes, List.length_append, hlen]
  have hwindow : min maxInstrBytes (s.len - s.cursor) = i.totalLength + rest.length := by
    rw [← hfetch, State.fetch, Memory.bytesFrom_length]
  have henc : s.buf.bytesFrom s.cursor i.totalLength = encode i := by
    rw [State.fetch, hwindow, Memory.bytesFrom_add] at hbytes
    exact (List.append_inj hbytes (by rw [Memory.bytesFrom_length, hlen])).1
  refine ⟨m.bytesFrom (s.cursor + i.totalLength) rest.length, (decode_eq_instr _ _ _).2 ⟨hwf, ?_⟩⟩
  rw [State.fetch, hwindow, Memory.bytesFrom_add, Memory.bytesFrom_congr s.buf m _ _ hm, henc]

/-- A buffer that reads alike on the bytes of the instruction a step decodes gives the step the same record. -/
theorem stepRecord_withBuf (s : State) (m : Memory) (d : DecodedInstruction) (h : stepRecord s = .decoded d)
    (hm : ∀ k, k < d.totalLength → m.read (s.cursor + k) = s.buf.read (s.cursor + k)) :
    stepRecord { s with buf := m } = stepRecord s := by
  obtain ⟨i, rest, hd, hlen⟩ := decode_of_stepRecord_decoded s d h
  obtain ⟨rest', hd'⟩ := decode_fetch_withBuf s m i rest hd (hlen ▸ hm)
  rw [stepRecord, stepRecord, hd, hd']
  exact instrRecord_withBuf i s m

/-- Settles O25: a byte outside the decoded instruction is none that it reads, so the step's record is the same
(`stepRecord_withBuf`), and the cursor follows from the record. -/
theorem stepIgnoresBytesOutsideItsInstruction : Obligations.StepIgnoresBytesOutsideItsInstruction := by
  intro s t d a v hbuf hst hout ha
  obtain ⟨hrun, hscan, rfl⟩ := (step_eq_next s t).1 hst
  have hdec : stepRecord s = .decoded d := by simpa using hout
  have hsame : stepRecord { s with buf := s.buf.write a v } = stepRecord s :=
    stepRecord_withBuf s _ d hdec fun k hk => Memory.read_write_other s.buf a _ v hbuf (by omega)
  refine ⟨_, step_of_enabled { s with buf := s.buf.write a v } hrun hscan, ?_, ?_⟩
  · rw [State.emit_out, hsame, State.emit_out]
  · rw [State.emit_cursor, hsame, State.emit_cursor]

end Sys2Proof.Machine

/-! PROOFS. Family 30_encoding.md: the classifier against its table, decoding and encoding as inverses, the length an
instruction's first two bytes fix, and the ignored reg field. -/

namespace Sys2Proof

/-! ### The classifier and its table -/

/-- A byte satisfies a pattern when it and the mask give the match value (30_encoding.md R65). -/
@[simp] theorem patternMatches_iff (p : OpcodePattern) (b0 : Byte) :
    patternMatches p b0 = true ↔ b0 &&& p.mask = p.expected := decide_eq_true_iff

/-- Two different rows of the opcode table disagree on a bit that both masks look at (30_encoding.md R66). -/
theorem opcodePatterns_disagree :
    ∀ p ∈ opcodePatterns, ∀ q ∈ opcodePatterns, p ≠ q → p.expected &&& q.mask ≠ q.expected &&& p.mask := by
  decide

/-- At most one row's pattern is satisfied by a byte (30_encoding.md R66). -/
theorem opcodePattern_unique (b0 : Byte) (p q : OpcodePattern) (hp : p ∈ opcodePatterns)
    (hq : q ∈ opcodePatterns) (hpb : b0 &&& p.mask = p.expected) (hqb : b0 &&& q.mask = q.expected) : p = q := by
  by_contra hne
  refine opcodePatterns_disagree p hp q hq hne ?_
  calc p.expected &&& q.mask = b0 &&& p.mask &&& q.mask := by rw [hpb]
    _ = b0 &&& q.mask &&& p.mask := by rw [BitVec.and_assoc, BitVec.and_comm p.mask, BitVec.and_assoc]
    _ = q.expected &&& p.mask := by rw [hqb]

/-- No class is answered exactly when no row's pattern is satisfied (30_encoding.md R68). -/
theorem classify_eq_none (b0 : Byte) :
    classify b0 = none ↔ ∀ p ∈ opcodePatterns, b0 &&& p.mask ≠ p.expected := by
  simp [classify, List.find?_eq_none]

/-- A class is answered exactly when a row of that class has its pattern satisfied: the search finds some such row,
and there is no other. -/
theorem classify_eq_some (b0 : Byte) (c : OpcodeClass) :
    classify b0 = some c ↔ ∃ p ∈ opcodePatterns, p.cls = c ∧ b0 &&& p.mask = p.expected := by
  rw [classify, Option.map_eq_some_iff]
  constructor
  · rintro ⟨p, hfind, hcls⟩
    exact ⟨p, List.mem_of_find?_eq_some hfind, hcls, by simpa using List.find?_some hfind⟩
  · rintro ⟨p, hp, hcls, hpb⟩
    have hfound : (opcodePatterns.find? fun r => patternMatches r b0).isSome :=
      List.find?_isSome.2 ⟨p, hp, (patternMatches_iff p b0).2 hpb⟩
    obtain ⟨q, hfind⟩ := Option.isSome_iff_exists.1 hfound
    have hqb : b0 &&& q.mask = q.expected := by simpa using List.find?_some hfind
    obtain rfl := opcodePattern_unique b0 p q hp (List.mem_of_find?_eq_some hfind) hpb hqb
    exact ⟨p, hfind, hcls⟩

/-- Settles O1: the rows exclude each other (`opcodePattern_unique`), so the row found is the one satisfied. -/
theorem classifyIsTheMatchingPattern : Obligations.ClassifyIsTheMatchingPattern :=
  fun b0 => ⟨classify_eq_some b0, classify_eq_none b0⟩

/-! ### Decoding and encoding -/

/-- Settles O3: the decoder evaluates each word to its instruction. -/
theorem writtenWordsDecode : Obligations.WrittenWordsDecode := by
  unfold Obligations.WrittenWordsDecode
  decide

/-- Settles O4: each class's reader reads back what it encodes (`decode_encode`). -/
theorem decodeOfEncodeIsTheInstruction : Obligations.DecodeOfEncodeIsTheInstruction := decode_encode

/-- Settles O5: the decoder answers an instruction exactly on its encoding (`decode_eq_instr`), which has the length
the instruction says (`encode_length`). -/
theorem decodedBytesAreTheEncoding : Obligations.DecodedBytesAreTheEncoding := by
  intro bs i rest h
  obtain ⟨hwf, hbytes⟩ := (decode_eq_instr bs i rest).1 h
  exact ⟨hwf, hbytes, encode_length i hwf⟩

/-! ### What each format reads -/

/-- Format F-RM reads its r/m operand after the mod-reg-rm byte (30_encoding.md R61). -/
theorem decodeRegMem_cons_eq_some (b0 b1 : Byte) (bs : List Byte) (i : Instr) (rest : List Byte) :
    decodeRegMem b0 (b1 :: bs) = some (i, rest) ↔
      ∃ rm, decodeRM (modBits b1) (rmBits b1) (wordFlag b0) bs = some (rm, rest) ∧
        i = .regMemToFromReg (directionFlag b0) (wordFlag b0) (regTable (wordFlag b0) (regBits b1)) rm := by
  simp [decodeRegMem, eq_comm]

/-- Format F-IRM reads its r/m operand and then its immediate after the mod-reg-rm byte (30_encoding.md R62). -/
theorem decodeImmRegMem_cons_eq_some (b0 b1 : Byte) (bs : List Byte) (i : Instr) (rest : List Byte) :
    decodeImmRegMem b0 (b1 :: bs) = some (i, rest) ↔
      ∃ rm bs' imm, decodeRM (modBits b1) (rmBits b1) (wordFlag b0) bs = some (rm, bs') ∧
        takeImm (wordFlag b0) bs' = some (imm, rest) ∧
        i = .immediateToRegMem (wordFlag b0) (regBits b1) rm imm := by
  simp [decodeImmRegMem, Option.bind_eq_some_iff, eq_comm (a := i)]

/-- Format F-IRM lacks a field exactly when fewer bytes follow its mod-reg-rm byte than displacement and immediate
take (30_encoding.md R72, R78). -/
theorem decodeImmRegMem_cons_eq_none (b0 b1 : Byte) (bs : List Byte) :
    decodeImmRegMem b0 (b1 :: bs) = none ↔
      bs.length < dispBytes (modBits b1) (rmBits b1) + immBytes (wordFlag b0) := by
  cases hrm : decodeRM (modBits b1) (rmBits b1) (wordFlag b0) bs with
  | none =>
    have hshort := (decodeRM_eq_none _ _ _ _).1 hrm
    exact iff_of_true (by simp [decodeImmRegMem, hrm]) (by omega)
  | some p =>
    obtain ⟨rm, bs'⟩ := p
    obtain ⟨-, -, hbytes⟩ := (decodeRM_eq_some _ _ _ _ _ _).1 hrm
    have hlen : bs.length = dispBytes (modBits b1) (rmBits b1) + bs'.length := by
      rw [hbytes, List.length_append, encodeDisp_length, decodeRM_bytes _ _ _ _ _ _ hrm]
    simp [decodeImmRegMem, hrm, takeImm_eq_none, hlen]

/-- Format F-IR reads its immediate after the opcode byte (30_encoding.md R63). -/
theorem decodeImmReg_eq_some (b0 : Byte) (bs : List Byte) (i : Instr) (rest : List Byte) :
    decodeImmReg b0 bs = some (i, rest) ↔
      ∃ imm, takeImm (wordFlagIR b0) bs = some (imm, rest) ∧
        i = .immediateToReg (wordFlagIR b0) (regTable (wordFlagIR b0) (rmBits b0)) imm := by
  simp [decodeImmReg, eq_comm]

/-! ### The length of an instruction -/

/-- The displacement bytes that a mod-reg-rm byte at the front announces (30_encoding.md R72). -/
def announcedDispBytes : List Byte → Nat
  | [] => 0
  | b1 :: _ => dispBytes (modBits b1) (rmBits b1)

/-- The length of an instruction told from its first bytes (30_encoding.md R80, R81): the opcode byte and, in the
formats that have one, the mod-reg-rm byte. -/
def announcedLength : List Byte → Nat
  | [] => 0
  | b0 :: bs =>
    match classify b0 with
    | some .regMemToFromReg => 2 + announcedDispBytes bs
    | some .immediateToRegMem => 2 + announcedDispBytes bs + immBytes (wordFlag b0)
    | some .immediateToReg => 1 + immBytes (wordFlagIR b0)
    | _ => 1

/-- The length told from its first bytes looks at no byte after the second. -/
theorem announcedLength_take_two (bs : List Byte) : announcedLength (bs.take 2) = announcedLength bs := by
  match bs with
  | [] | [_] | _ :: _ :: _ => rfl

/-- Format F-RM: the opcode and mod-reg-rm bytes, and the displacement (30_encoding.md R80). -/
theorem totalLength_of_decodeRegMem (b0 : Byte) (bs : List Byte) (i : Instr) (rest : List Byte)
    (h : decodeRegMem b0 bs = some (i, rest)) : i.totalLength = 2 + announcedDispBytes bs := by
  cases bs with
  | nil => cases h
  | cons b1 bs =>
    obtain ⟨rm, hrm, rfl⟩ := (decodeRegMem_cons_eq_some _ _ _ _ _).1 h
    rw [Instr.totalLength, decodeRM_bytes _ _ _ _ _ _ hrm, announcedDispBytes]

/-- Format F-IRM: as F-RM, and the immediate (30_encoding.md R80). -/
theorem totalLength_of_decodeImmRegMem (b0 : Byte) (bs : List Byte) (i : Instr) (rest : List Byte)
    (h : decodeImmRegMem b0 bs = some (i, rest)) :
    i.totalLength = 2 + announcedDispBytes bs + immBytes (wordFlag b0) := by
  cases bs with
  | nil => cases h
  | cons b1 bs =>
    obtain ⟨rm, _, imm, hrm, -, rfl⟩ := (decodeImmRegMem_cons_eq_some _ _ _ _ _).1 h
    rw [Instr.totalLength, decodeRM_bytes _ _ _ _ _ _ hrm, announcedDispBytes]

/-- Format F-IR: the opcode byte and the immediate (30_encoding.md R80). -/
theorem totalLength_of_decodeImmReg (b0 : Byte) (bs : List Byte) (i : Instr) (rest : List Byte)
    (h : decodeImmReg b0 bs = some (i, rest)) : i.totalLength = 1 + immBytes (wordFlagIR b0) := by
  obtain ⟨imm, -, rfl⟩ := (decodeImmReg_eq_some _ _ _ _).1 h
  rfl

/-- A decoded instruction has the length its first bytes tell. -/
theorem totalLength_of_decode (bs : List Byte) (i : Instr) (rest : List Byte) (h : decode bs = .instr i rest) :
    i.totalLength = announcedLength bs := by
  cases bs with
  | nil => cases h
  | cons b0 bs =>
    rw [decode_cons] at h
    cases hc : classify b0 with
    | none => rw [hc] at h; cases h
    | some c =>
      rw [hc] at h
      rw [announcedLength, hc]
      cases c with
      | regMemToFromReg => exact totalLength_of_decodeRegMem b0 bs i rest ((orTruncated_eq_instr _ _ _ _ _).1 h)
      | immediateToRegMem =>
        exact totalLength_of_decodeImmRegMem b0 bs i rest ((orTruncated_eq_instr _ _ _ _ _).1 h)
      | immediateToReg => exact totalLength_of_decodeImmReg b0 bs i rest ((orTruncated_eq_instr _ _ _ _ _).1 h)
      | memToAcc | accToMem | regMemToSegReg | segRegToRegMem => cases h; rfl

/-- Settles O6: a decoded instruction has the length its first bytes tell (`totalLength_of_decode`), and no byte after
the second tells it (`announcedLength_take_two`). -/
theorem lengthFromFirstTwoBytes : Obligations.LengthFromFirstTwoBytes := by
  intro bs bs' i i' rest rest' h h' htake
  calc i.totalLength = announcedLength (bs.take 2) := by
        rw [totalLength_of_decode bs i rest h, announcedLength_take_two]
    _ = i'.totalLength := by rw [htake, announcedLength_take_two, totalLength_of_decode bs' i' rest' h']

end Sys2Proof

namespace Sys2Proof.Machine

/-! ### The ignored reg field -/

/-- With two bytes left, the fetch window begins with the bytes at the cursor and after it. -/
theorem fetch_cons_cons (s : State) (h : s.cursor + 1 < s.len) :
    s.fetch = s.buf.read s.cursor :: s.buf.read (s.cursor + 1) ::
      s.buf.bytesFrom (s.cursor + 2) (min maxInstrBytes (s.len - s.cursor) - 2) := by
  have hn : min maxInstrBytes (s.len - s.cursor) = (min maxInstrBytes (s.len - s.cursor) - 2) + 2 := by
    unfold maxInstrBytes; omega
  conv_lhs => rw [State.fetch, hn]
  rfl

/-- Where displacement and immediate are all in the window, an ImmediateToRegMem gives a Decoded record
(42_mov_immediate.md R132). -/
theorem stepRecord_immRegMem_decoded (s : State) (b0 b1 : Byte) (bs : List Byte) (hf : s.fetch = b0 :: b1 :: bs)
    (hc : classify b0 = some .immediateToRegMem)
    (hlen : dispBytes (modBits b1) (rmBits b1) + immBytes (wordFlag b0) ≤ bs.length) :
    ∃ d, stepRecord s = .decoded d := by
  cases hd : decodeImmRegMem b0 (b1 :: bs) with
  | none =>
    have := (decodeImmRegMem_cons_eq_none b0 b1 bs).1 hd
    omega
  | some p =>
    obtain ⟨i, rest⟩ := p
    obtain ⟨rm, bs', imm, -, -, rfl⟩ := (decodeImmRegMem_cons_eq_some b0 b1 bs i rest).1 hd
    rw [stepRecord, hf, decode_cons, hc]
    simp only [hd, orTruncated, instrRecord]
    exact ⟨_, rfl⟩

/-- Two windows of an ImmediateToRegMem that differ only in the reg field give the same record, decoded or truncated
(30_encoding.md R83). -/
theorem stepRecord_immRegMem_congr (s s' : State) (b0 b1 b1' : Byte) (bs : List Byte)
    (hlen : s'.len = s.len) (hcur : s'.cursor = s.cursor)
    (hf : s.fetch = b0 :: b1 :: bs) (hf' : s'.fetch = b0 :: b1' :: bs)
    (hc : classify b0 = some .immediateToRegMem) (hmod : modBits b1' = modBits b1) (hrm : rmBits b1' = rmBits b1) :
    stepRecord s' = stepRecord s := by
  rw [stepRecord, stepRecord, hf, hf', decode_cons, decode_cons, hc]
  cases hd : decodeImmRegMem b0 (b1 :: bs) with
  | none =>
    have hd' : decodeImmRegMem b0 (b1' :: bs) = none := by
      rw [decodeImmRegMem_cons_eq_none, hmod, hrm]
      exact (decodeImmRegMem_cons_eq_none b0 b1 bs).1 hd
    simp only [hd', orTruncated, failureRecord, State.errorRecord, hlen, hcur]
  | some p =>
    obtain ⟨i, rest⟩ := p
    obtain ⟨rm, bs', imm, hop, himm, rfl⟩ := (decodeImmRegMem_cons_eq_some b0 b1 bs i rest).1 hd
    have hd' : decodeImmRegMem b0 (b1' :: bs) =
        some (.immediateToRegMem (wordFlag b0) (regBits b1') rm imm, rest) :=
      (decodeImmRegMem_cons_eq_some b0 b1' bs _ rest).2 ⟨rm, bs', imm, by rw [hmod, hrm, hop], himm, rfl⟩
    simp only [hd', orTruncated, instrRecord]

/-- A write to the byte after the cursor changes the second byte of the fetch window only. -/
theorem fetch_write_second (s : State) (v : Byte) (hbuf : s.buf.wf) (h : s.cursor + 1 < s.len) :
    State.fetch { s with buf := s.buf.write (s.cursor + 1) v } =
      s.buf.read s.cursor :: v ::
        s.buf.bytesFrom (s.cursor + 2) (min maxInstrBytes (s.len - s.cursor) - 2) := by
  refine (fetch_cons_cons { s with buf := s.buf.write (s.cursor + 1) v } h).trans ?_
  dsimp only
  rw [Memory.read_write_other _ _ _ _ hbuf (by omega), Memory.read_write_same _ _ _ hbuf,
    Memory.bytesFrom_congr s.buf _ _ _ fun k _ => Memory.read_write_other _ _ _ _ hbuf (by omega)]

/-- Settles O24: the two windows differ in the reg field only, so the records agree (`stepRecord_immRegMem_congr`), and
the record is a Decoded one where the fields fit (`stepRecord_immRegMem_decoded`). -/
theorem ignoredRegFieldChangesNothing : Obligations.IgnoredRegFieldChangesNothing := by
  intro s t b1 b1' hc hbuf hb1 hmod hrm hst
  obtain ⟨hrun, hscan, rfl⟩ := (step_eq_next s t).1 hst
  obtain ⟨hlt, rfl⟩ : s.cursor + 1 < s.len ∧ s.buf.read (s.cursor + 1) = b1 := by
    simpa [State.bufRd] using hb1
  have hf := fetch_cons_cons s hlt
  have hsame : stepRecord { s with buf := s.buf.write (s.cursor + 1) b1' } = stepRecord s :=
    stepRecord_immRegMem_congr s _ _ _ b1' _ rfl rfl hf (fetch_write_second s b1' hbuf hlt) hc hmod hrm
  refine ⟨_, step_of_enabled { s with buf := s.buf.write (s.cursor + 1) b1' } hrun hscan, ?_, ?_, fun hfits => ?_⟩
  · rw [State.emit_out, hsame, State.emit_out]
  · rw [State.emit_cursor, hsame, State.emit_cursor]
  · have hdisp := dispBytes_le (modBits (s.buf.read (s.cursor + 1))) (rmBits (s.buf.read (s.cursor + 1)))
    have himm := immBytes_le (wordFlag (s.buf.read s.cursor))
    obtain ⟨d, hd⟩ := stepRecord_immRegMem_decoded s _ _ _ hf hc (by
      rw [Memory.bytesFrom_length, maxInstrBytes]; omega)
    exact ⟨d, by rw [State.emit_out, hsame, hd]⟩

end Sys2Proof.Machine

/-! PROOFS. Family 40_decode_step.md: the step against the spec's pseudocode of Decode, the walk of the buffer, how far
the cursor moves, and the operand forms. First the tie between the decoder, which reads a list, and the pseudocode,
which reads the buffer by address. -/

namespace Sys2Proof

/-- `DecodeRM` leaves what follows the operand's bytes. -/
theorem decodeRM_rest (mod : BitVec 2) (rm : BitVec 3) (w : Bool) (bs : List Byte) (op : RmOperand)
    (rest : List Byte) (h : decodeRM mod rm w bs = some (op, rest)) : rest = bs.drop op.bytes := by
  obtain ⟨-, -, rfl⟩ := (decodeRM_eq_some _ _ _ _ _ _).1 h
  rw [← encodeDisp_length, List.drop_left]

end Sys2Proof

namespace Sys2Proof.Machine

/-! ### The window of the buffer that a list of bytes stands for -/

/-- The bytes from address `q` on, at most `m` of them and none at or beyond LEN. -/
def State.window (s : State) (q m : Nat) : List Byte := s.buf.bytesFrom q (min m (s.len - q))

section Window
variable (s : State) (q m : Nat)

/-- The fetch window is the window of six bytes at the cursor (10_state.md R22). -/
theorem fetch_eq_window : s.fetch = s.window s.cursor 6 := rfl

theorem window_cons (h : q < s.len) : s.window q (m + 1) = s.buf.read q :: s.window (q + 1) m := by
  have hn : min (m + 1) (s.len - q) = min m (s.len - (q + 1)) + 1 := by omega
  rw [State.window, hn]
  rfl

theorem window_nil (h : s.len ≤ q) : s.window q m = [] := by
  have hn : min m (s.len - q) = 0 := by omega
  rw [State.window, hn]
  rfl

theorem window_drop (k : Nat) : (s.window q m).drop k = s.window (q + k) (m - k) := by
  by_cases h : k ≤ min m (s.len - q)
  · have hn : min m (s.len - q) = k + min (m - k) (s.len - (q + k)) := by omega
    rw [State.window, hn, Memory.bytesFrom_add, List.drop_left' (Memory.bytesFrom_length _ _ _)]
    rfl
  · have hn : min (m - k) (s.len - (q + k)) = 0 := by omega
    rw [State.window, List.drop_of_length_le (by rw [Memory.bytesFrom_length]; omega), State.window, hn]
    rfl

/-- One byte off a window's front is a one-byte read (20_memory.md R47, R48). -/
theorem takeByte_window :
    takeByte (s.window q (m + 1)) = (s.memRead q 1).map fun v => (v, s.window (q + 1) m) := by
  rw [memRead_one]
  by_cases h : q < s.len
  · rw [window_cons s q m h, if_neg (by omega)]
    rfl
  · rw [window_nil s q _ (by omega), if_pos (by omega)]
    rfl

/-- Two bytes off a window's front are a two-byte read, and neither is read when the second lies past LEN
(20_memory.md R47, R48). -/
theorem takeWord_window :
    takeWord (s.window q (m + 2)) = (s.memRead q 2).map fun v => (v, s.window (q + 2) m) := by
  rw [memRead_two]
  by_cases h : q + 1 < s.len
  · rw [window_cons s q _ (by omega), window_cons s (q + 1) m h, if_neg (by omega)]
    rfl
  · rw [if_pos (by omega), Option.map_none, takeWord_eq_none, State.window, Memory.bytesFrom_length]
    omega

/-- The immediate off a window's front is a read of its bytes (30_encoding.md R78). -/
theorem takeImm_window (w : Bool) (hm : 2 ≤ m) :
    (takeImm w (s.window q m)).map Prod.fst = s.memRead q (immBytes w) := by
  obtain ⟨k, rfl⟩ := Nat.exists_eq_add_of_le' hm
  cases w with
  | false =>
    rw [show takeImm false _ = _ from takeByte_window s q (k + 1), immBytes, if_neg Bool.false_ne_true]
    cases s.memRead q 1 <;> rfl
  | true =>
    rw [show takeImm true _ = _ from takeWord_window s q k, immBytes, if_pos rfl]
    cases s.memRead q 2 <;> rfl

/-- The decoder's `DecodeRM` on a window is the pseudocode's at its address (40_decode_step.md R97). -/
theorem decodeRM_window (mod : BitVec 2) (rm : BitVec 3) (w : Bool) :
    (decodeRM mod rm w (s.window q 4)).map (fun x => (x.1.toOperand, x.1.bytes)) = refDecodeRM s mod rm w q := by
  rcases mod_cases mod with rfl | rfl | rfl | rfl
  · by_cases hrm : rm = 0b110#3
    · simp only [decodeRM, refDecodeRM, modField_zero, hrm, takeWord_window s q 2]
      cases s.memRead q 2 <;> rfl
    · simp [decodeRM, refDecodeRM, hrm, RmOperand.toOperand, RmOperand.bytes, based, DispWidth.bytes]
  · simp only [decodeRM, refDecodeRM, modField_one, takeByte_window s q 3]
    cases s.memRead q 1 <;> rfl
  · simp only [decodeRM, refDecodeRM, modField_two, takeWord_window s q 2]
    cases s.memRead q 2 <;> rfl
  · rfl

end Window

/-! ### The record of a step is the pseudocode's -/

theorem bufRd_of_lt {s : State} {a : Nat} (h : a < s.len) : s.bufRd a = some (s.buf.read a) := if_pos h

theorem bufRd_eq_none {s : State} {a : Nat} (h : s.len ≤ a) : s.bufRd a = none := if_neg (Nat.not_lt.2 h)

/-- The record of a RegMemToFromReg whose r/m operand takes `n` bytes (41_mov_regmem_reg.md R122). -/
def regMemRecord (d : Bool) (reg : Reg) (op : Operand) (n : Nat) : DecodedInstruction where
  cls := .regMemToFromReg
  destination := if d then .reg reg else op
  source := if d then op else .reg reg
  totalLength := 2 + n

/-- The record of an ImmediateToRegMem whose r/m operand takes `n` bytes (42_mov_immediate.md R132). -/
def immRegMemRecord (w : Bool) (op : Operand) (n : Nat) (imm : Word) : DecodedInstruction where
  cls := .immediateToRegMem
  destination := op
  source := immOperand w imm (markerOf w)
  totalLength := 2 + n + immBytes w

/-- `DecodeRegMem` where the mod-reg-rm byte is in the buffer (41_mov_regmem_reg.md R122). -/
theorem refDecodeRegMem_eq (s : State) (p : Nat) (b0 : Byte) (h : p + 1 < s.len) :
    refDecodeRegMem s p b0 =
      (refDecodeRM s (modBits (s.buf.read (p + 1))) (rmBits (s.buf.read (p + 1))) (wordFlag b0) (p + 2)).map
        fun x => regMemRecord (directionFlag b0) (regTable (wordFlag b0) (regBits (s.buf.read (p + 1)))) x.1 x.2 := by
  rw [refDecodeRegMem, bufRd_of_lt h, Option.map_eq_bind]
  rfl

/-- `DecodeImmRegMem` where the mod-reg-rm byte is in the buffer (42_mov_immediate.md R132). -/
theorem refDecodeImmRegMem_eq (s : State) (p : Nat) (b0 : Byte) (h : p + 1 < s.len) :
    refDecodeImmRegMem s p b0 =
      (refDecodeRM s (modBits (s.buf.read (p + 1))) (rmBits (s.buf.read (p + 1))) (wordFlag b0) (p + 2)).bind
        fun x => (s.memRead (p + 2 + x.2) (immBytes (wordFlag b0))).map
          fun imm => immRegMemRecord (wordFlag b0) x.1 x.2 imm := by
  rw [refDecodeImmRegMem, bufRd_of_lt h]
  simp only [Option.map_eq_bind]
  rfl

/-- `DecodeImmReg` (42_mov_immediate.md R142). -/
theorem refDecodeImmReg_eq (s : State) (p : Nat) (b0 : Byte) :
    refDecodeImmReg s p b0 =
      (s.memRead (p + 1) (immBytes (wordFlagIR b0))).map
        fun imm => recordImmReg (wordFlagIR b0) (regTable (wordFlagIR b0) (rmBits b0)) imm := by
  rw [Option.map_eq_bind]
  rfl

/-- The record format F-RM leads to is the one `DecodeRegMem` gives (41_mov_regmem_reg.md R122). -/
theorem decodeRegMem_window (s : State) (p : Nat) (b0 : Byte) :
    (decodeRegMem b0 (s.window (p + 1) 5)).map (fun x => instrRecord x.1 s) =
      (refDecodeRegMem s p b0).map .decoded := by
  by_cases h : p + 1 < s.len
  · rw [window_cons s (p + 1) 4 h, refDecodeRegMem_eq s p b0 h, ← decodeRM_window s (p + 2)]
    simp only [decodeRegMem, Option.map_map]
    rfl
  · rw [window_nil s (p + 1) 5 (by omega), refDecodeRegMem, bufRd_eq_none (by omega)]
    rfl

/-- The record format F-IRM leads to is the one `DecodeImmRegMem` gives (42_mov_immediate.md R132). -/
theorem decodeImmRegMem_window (s : State) (p : Nat) (b0 : Byte) :
    (decodeImmRegMem b0 (s.window (p + 1) 5)).map (fun x => instrRecord x.1 s) =
      (refDecodeImmRegMem s p b0).map .decoded := by
  by_cases h : p + 1 < s.len
  · rw [window_cons s (p + 1) 4 h, refDecodeImmRegMem_eq s p b0 h, ← decodeRM_window s (p + 2), decodeImmRegMem]
    cases hrm : decodeRM (modBits (s.buf.read (p + 1))) (rmBits (s.buf.read (p + 1))) (wordFlag b0)
        (s.window (p + 2) 4) with
    | none => rfl
    | some x =>
      obtain ⟨op, rest⟩ := x
      have hrest : rest = s.window (p + 2 + op.bytes) (4 - op.bytes) := by
        rw [decodeRM_rest _ _ _ _ _ _ hrm, window_drop]
      have hroom : 2 ≤ 4 - op.bytes := by have := op.bytes_le; omega
      simp only [Option.map_some, Option.bind_some, hrest, ← takeImm_window s _ _ _ hroom, Option.map_map]
      rfl
  · rw [window_nil s (p + 1) 5 (by omega), refDecodeImmRegMem, bufRd_eq_none (by omega)]
    rfl

/-- The record format F-IR leads to is the one `DecodeImmReg` gives (42_mov_immediate.md R142). -/
theorem decodeImmReg_window (s : State) (p : Nat) (b0 : Byte) :
    (decodeImmReg b0 (s.window (p + 1) 5)).map (fun x => instrRecord x.1 s) =
      (refDecodeImmReg s p b0).map .decoded := by
  rw [refDecodeImmReg_eq, ← takeImm_window s (p + 1) 5 _ (by decide)]
  simp only [decodeImmReg, Option.map_map]
  rfl

/-- Where a supported class's reader leads to the record its pseudocode gives, so does the step, a read past LEN among
it (60_exceptions.md R194). -/
theorem stepRecord_of_orTruncated (s : State) (c : OpcodeClass) (x : Option (Instr × List Byte))
    (y : Option DecodedInstruction) (hd : decode s.fetch = orTruncated (s.buf.read s.cursor) c x)
    (hxy : x.map (fun p => instrRecord p.1 s) = y.map .decoded) :
    stepRecord s = refOrTruncated s s.cursor c y := by
  rw [stepRecord, hd]
  cases x with
  | none =>
    obtain rfl : y = none := by simpa using hxy.symm
    rfl
  | some p =>
    obtain ⟨d, rfl, hrec⟩ := Option.map_eq_some_iff.1 hxy.symm
    exact hrec.symm

/-- The record of a step is the one the spec's pseudocode gives at the cursor (40_decode_step.md R93). -/
theorem stepRecord_eq_refDecode (s : State) (hs : s.Scanning) : stepRecord s = refDecode s s.cursor := by
  have hfetch : s.fetch = s.buf.read s.cursor :: s.window (s.cursor + 1) 5 := by
    rw [fetch_eq_window, window_cons s s.cursor 5 hs]
  rw [refDecode]
  cases hc : classify (s.buf.read s.cursor) with
  | none => exact stepRecord_of_unrecognized s hs hc
  | some c =>
    cases c with
    | regMemToFromReg =>
      exact stepRecord_of_orTruncated s _ _ _ (by rw [hfetch, decode_cons, hc]) (decodeRegMem_window s _ _)
    | immediateToRegMem =>
      exact stepRecord_of_orTruncated s _ _ _ (by rw [hfetch, decode_cons, hc]) (decodeImmRegMem_window s _ _)
    | immediateToReg =>
      exact stepRecord_of_orTruncated s _ _ _ (by rw [hfetch, decode_cons, hc]) (decodeImmReg_window s _ _)
    | memToAcc | accToMem | regMemToSegReg | segRegToRegMem => exact stepRecord_of_unsupported s hs _ hc rfl

/-- Settles O16: an enabled step emits its record, which is the pseudocode's (`stepRecord_eq_refDecode`). -/
theorem stepEmitsTheRecordOfTheSpecsDecode : Obligations.StepEmitsTheRecordOfTheSpecsDecode := by
  intro s hrun hscan
  exact ⟨_, step_of_enabled s hrun hscan, by rw [State.emit_out, stepRecord_eq_refDecode s hscan]⟩

/-! ### The output is the walk of the buffer -/

/-- The pseudocode reads the inputs only, which emitting a record leaves as they are. -/
theorem refDecode_emit (s : State) (r : StepRecord) (p : Nat) : refDecode (s.emit r) p = refDecode s p := rfl

/-- Emitting a record changes no walk of the buffer. -/
theorem isWalk_emit (s : State) (r : StepRecord) (p q : Nat) (rs : List StepRecord) :
    isWalk (s.emit r) p rs q ↔ isWalk s p rs q := by
  induction rs generalizing p with
  | nil => rfl
  | cons r' rs ih => exact and_congr_right fun _ => and_congr_right fun _ => ih _

/-- A walk goes on by the decode at the position where it ends. -/
theorem isWalk_concat (s : State) (p q : Nat) (rs : List StepRecord) (h : isWalk s p rs q) (hq : q < s.len) :
    isWalk s p (rs ++ [refDecode s q]) (nextCursor s.params s.len q (refDecode s q)) := by
  induction rs generalizing p with
  | nil =>
    obtain rfl : p = q := h
    exact ⟨hq, rfl, rfl⟩
  | cons r rs ih =>
    obtain ⟨hp, hr, hrest⟩ := h
    exact ⟨hp, hr, ih _ hrest⟩

/-- Settles O35: the record of a step is the decode at the cursor (`stepRecord_eq_refDecode`), so the walk goes on by
it (`isWalk_concat`). -/
theorem stepKeepsTheOutputTheWalk : Obligations.StepKeepsTheOutputTheWalk := by
  intro s t hwalk hst
  obtain ⟨-, hscan, rfl⟩ := (step_eq_next s t).1 hst
  rw [State.OutputIsWalk, isWalk_emit, State.emit_out, State.emit_cursor, stepRecord_eq_refDecode s hscan]
  exact isWalk_concat s 0 s.cursor s.out hwalk hscan

/-! ### When a step is enabled -/

/-- In a runnable state a step gives a next state exactly when the walker is Scanning (40_decode_step.md R90). -/
theorem exists_step_iff_scanning (s : State) (hrun : s.Runnable) : (∃ t, step s = .next t) ↔ s.Scanning := by
  constructor
  · rintro ⟨t, ht⟩
    exact ((step_eq_next s t).1 ht).2.1
  · exact fun hscan => ⟨_, step_of_enabled s hrun hscan⟩

/-- The output `done` says that the walker is not Scanning (10_state.md R41). -/
theorem done_iff (s : State) : s.done = true ↔ s.len ≤ s.cursor := decide_eq_true_iff

/-- Settles O14: `done` is the negation of Scanning, in which a step is enabled. -/
theorem stepEnabledExactlyInScanning : Obligations.StepEnabledExactlyInScanning := by
  intro s hrun
  have hiff := exists_step_iff_scanning s hrun
  exact ⟨hiff, by rw [hiff, done_iff, Nat.not_lt]⟩

/-- A runnable state is refused for being Terminal (log entry 8). -/
theorem refusal?_of_terminal (s : State) (hrun : s.Runnable) (h : s.len ≤ s.cursor) :
    s.refusal? = some .terminal := by
  obtain ⟨hchanged, hlegal⟩ := hrun
  simp [State.refusal?, State.terminal, hchanged, hlegal, h]

/-- Settles O15: with the inputs unchanged and the parameters legal, being Terminal is the one reason left. -/
theorem terminalStepIsRefused : Obligations.TerminalStepIsRefused := by
  intro s hrun h
  rw [step, refusal?_of_terminal s hrun h]

/-- Settles O13: an enabled step is the meaning of the instruction the decoder answers. -/
theorem stepRunsTheDecodedInstruction : Obligations.StepRunsTheDecodedInstruction := by
  intro s i rest hrun hscan hdec
  rw [step, (refusal?_eq_none s).2 ⟨hrun, hscan⟩, hdec]

/-! ### How far the cursor moves -/

/-- An error record of the pseudocode names the position it decoded at (10_state.md R37). -/
theorem start_of_refDecode_error (s : State) (p : Nat) (e : DecodeError) (h : refDecode s p = .error e) :
    e.start = p := by
  have herr : ∀ kind c, refError s p kind c = .error e → e.start = p := by
    rintro kind c ⟨⟩
    rfl
  have htrunc : ∀ c y, refOrTruncated s p c y = .error e → e.start = p := by
    intro c y hy
    cases y with
    | none => exact herr _ _ hy
    | some d => cases hy
  rw [refDecode] at h
  cases hc : classify (s.buf.read p) with
  | none => rw [hc] at h; exact herr _ _ h
  | some c =>
    rw [hc] at h
    cases c with
    | regMemToFromReg | immediateToRegMem | immediateToReg => exact htrunc _ _ h
    | memToAcc | accToMem | regMemToSegReg | segRegToRegMem => exact herr _ _ h

/-- The pseudocode gives a well-formed record at every position below LEN: it is that of the step taken there. -/
theorem refDecode_wf (s : State) (p : Nat) (hp : p < s.len) : (refDecode s p).wf s.len = true := by
  have hrec : stepRecord { s with cursor := p } = refDecode s p := stepRecord_eq_refDecode { s with cursor := p } hp
  rw [← hrec]
  exact stepRecord_wf (s := { s with cursor := p }) hp

/-- In a run with a meaning both fallbacks move the cursor (00_scope.md R9). -/
theorem fallback_pos_of_runnable {s : State} (h : s.Runnable) :
    1 ≤ s.params.fallbackUnrecognized ∧ 1 ≤ s.params.fallbackUnsupported := by
  obtain ⟨-, hlegal⟩ := h
  simp only [Params.legalFor, Bool.and_eq_true, decide_eq_true_eq] at hlegal
  exact hlegal.1

/-- Every record's advance is at least one byte (40_decode_step.md R106). -/
theorem advance_refDecode_pos {s : State} (hrun : s.Runnable) (p : Nat) (hp : p < s.len) :
    1 ≤ advance s.params s.len (refDecode s p) := by
  obtain ⟨hunrec, hunsup⟩ := fallback_pos_of_runnable hrun
  have hwf := refDecode_wf s p hp
  cases hr : refDecode s p with
  | decoded d =>
    rw [hr] at hwf
    obtain ⟨-, -, -, hlen, -⟩ := (DecodedInstruction.wf_iff d).1 hwf
    exact Nat.le_of_lt hlen
  | error e =>
    have hstart := start_of_refDecode_error s p e hr
    rw [advance]
    cases e.kind with
    | unrecognizedOpcode => exact hunrec
    | unsupportedVariant => exact hunsup
    | truncatedInstruction => dsimp only; omega

/-- The cursor update moves the cursor on (40_decode_step.md R106). -/
theorem lt_nextCursor {s : State} (hrun : s.Runnable) (p : Nat) (hp : p < s.len) :
    p < nextCursor s.params s.len p (refDecode s p) := by
  have := advance_refDecode_pos hrun p hp
  rw [nextCursor]
  omega

/-- Settles O29: the record's advance is at least one byte (`lt_nextCursor`), and the cursor is clamped to LEN. -/
theorem everyStepMovesForward : Obligations.EveryStepMovesForward := by
  intro s t hst
  obtain ⟨hrun, hscan, rfl⟩ := (step_eq_next s t).1 hst
  rw [State.emit_cursor, stepRecord_eq_refDecode s hscan]
  exact ⟨lt_nextCursor hrun s.cursor hscan, nextCursor_le_len _ _ _ _⟩

/-- A decoded instruction lies below LEN. -/
theorem totalLength_le_of_stepRecord (s : State) (d : DecodedInstruction) (hs : s.Scanning)
    (h : stepRecord s = .decoded d) : s.cursor + d.totalLength ≤ s.len := by
  obtain ⟨i, rest, hd, hlen⟩ := decode_of_stepRecord_decoded s d h
  obtain ⟨hwf, hbytes⟩ := (decode_eq_instr _ _ _).1 hd
  have hfetch := congrArg List.length hbytes
  rw [fetch_length, List.length_append, encode_length i hwf, hlen] at hfetch
  have := Nat.le_of_lt hs
  omega

/-- Settles O17: a decoded instruction lies below LEN, so its length is not clamped, and a truncated one starts at the
cursor, so its advance ends at LEN. -/
theorem stepMovesTheCursorByTheRecordsAdvance : Obligations.StepMovesTheCursorByTheRecordsAdvance := by
  intro s t hst
  obtain ⟨-, hscan, rfl⟩ := (step_eq_next s t).1 hst
  refine ⟨stepRecord s, State.emit_out s _, ?_⟩
  rw [State.emit_cursor]
  cases hr : stepRecord s with
  | decoded d =>
    have hfits := totalLength_le_of_stepRecord s d hscan hr
    exact ⟨Nat.min_eq_left hfits, hfits⟩
  | error e =>
    rw [stepRecord_eq_refDecode s hscan] at hr
    have hstart := start_of_refDecode_error s s.cursor e hr
    dsimp only [nextCursor, advance]
    cases e.kind with
    | unrecognizedOpcode => rfl
    | unsupportedVariant => rfl
    | truncatedInstruction => dsimp only; omega

/-! ### Runs and walks -/

/-- Settles O30, by induction on the bytes left: every step leaves fewer of them (`everyStepMovesForward`). -/
theorem everyRunReachesTerminal : Obligations.EveryRunReachesTerminal := by
  intro s hrun hle
  induction hn : s.len - s.cursor using Nat.strong_induction_on generalizing s with
  | _ n ih =>
    by_cases hscan : s.cursor < s.len
    · have hst := step_of_enabled s hrun hscan
      obtain ⟨hlt, hle'⟩ := everyStepMovesForward _ _ hst
      have hfewer : (s.emit (stepRecord s)).len - (s.emit (stepRecord s)).cursor < n := by
        rw [State.emit_len] at hle' ⊢
        omega
      obtain ⟨k, t, hk, hrunk, hcur, hdone, hout⟩ := ih _ hfewer _ (step_runnable hst) hle' rfl
      refine ⟨k + 1, t, by omega, by rw [run_succ_of_next k _ _ hst, hrunk], hcur, hdone, ?_⟩
      rw [hout, State.emit_out, List.length_append, List.length_singleton]
      omega
    · have hend : s.cursor = s.len := by omega
      exact ⟨0, s, Nat.zero_le _, rfl, hend, (done_iff s).2 hend.ge, rfl⟩

section Walk
variable {s : State} {p q : Nat} {rs : List StepRecord} (hrun : s.Runnable) (h : isWalk s p rs q)

include hrun h in
/-- The records of a walk start between the position it starts from and LEN. -/
theorem mem_recordStarts_bounds (a : Nat) (ha : a ∈ recordStarts s.params s.len p rs) : p ≤ a ∧ a < s.len := by
  induction rs generalizing p with
  | nil => cases ha
  | cons r rs ih =>
    obtain ⟨hp, rfl, hrest⟩ := h
    have hlt := lt_nextCursor hrun p hp
    rcases List.mem_cons.1 ha with rfl | ha
    · exact ⟨le_rfl, hp⟩
    · have := ih hrest ha
      omega

include hrun h in
/-- The records of a walk start at strictly increasing addresses (40_decode_step.md R112). -/
theorem recordStarts_pairwise : (recordStarts s.params s.len p rs).Pairwise (· < ·) := by
  induction rs generalizing p with
  | nil => exact .nil
  | cons r rs ih =>
    obtain ⟨hp, rfl, hrest⟩ := h
    have hlt := lt_nextCursor hrun p hp
    refine .cons (fun a ha => ?_) (ih hrest)
    have := mem_recordStarts_bounds hrun hrest a ha
    omega

include h in
/-- An error record of a walk names the address it starts at (10_state.md R37). -/
theorem recordStarts_getElem?_error (k : Nat) (e : DecodeError) (he : rs[k]? = some (.error e)) :
    (recordStarts s.params s.len p rs)[k]? = some e.start := by
  induction rs generalizing p k with
  | nil => cases he
  | cons r rs ih =>
    obtain ⟨-, hr, hrest⟩ := h
    cases k with
    | zero =>
      obtain rfl : r = .error e := Option.some.inj he
      rw [start_of_refDecode_error s p e hr.symm]
      rfl
    | succ k => exact ih hrest k he

end Walk

/-- Settles O37: three facts about every walk. -/
theorem recordsStartInOrder : Obligations.RecordsStartInOrder :=
  fun _ hrun hwalk => ⟨recordStarts_pairwise hrun hwalk, fun a ha => (mem_recordStarts_bounds hrun hwalk a ha).2,
    recordStarts_getElem?_error hwalk⟩

/-! ### The r/m operand -/

/-- The operand that mod and rm name, with its displacement bytes read from address `q` on (40_decode_step.md R98 to
R102). -/
def rmOperandAt (s : State) (mod : BitVec 2) (rm : BitVec 3) (w : Bool) (q : Nat) : RmOperand :=
  match modField mod with
  | .registerMode => .reg (regTable w rm)
  | .noDisplacement =>
    if rm = 0b110#3 then .mem (directAddress (joinLE (s.buf.read q) (s.buf.read (q + 1))))
    else .mem (based (eaTable rm) .w0 0)
  | .disp8 => .mem (based (eaTable rm) .w8 (zext16 (s.buf.read q)))
  | .disp16 => .mem (based (eaTable rm) .w16 (joinLE (s.buf.read q) (s.buf.read (q + 1))))

/-- `DecodeRM` gives that operand where its displacement bytes are in the buffer (40_decode_step.md R97). -/
theorem refDecodeRM_eq_some (s : State) (mod : BitVec 2) (rm : BitVec 3) (w : Bool) (q : Nat)
    (h : q + dispBytes mod rm ≤ s.len) :
    refDecodeRM s mod rm w q = some ((rmOperandAt s mod rm w q).toOperand, dispBytes mod rm) := by
  have hone : dispBytes mod rm = 1 → s.memRead q 1 = some (zext16 (s.buf.read q)) := fun hn => if_neg (by omega)
  have htwo : dispBytes mod rm = 2 → s.memRead q 2 = some (joinLE (s.buf.read q) (s.buf.read (q + 1))) :=
    fun hn => if_neg (by omega)
  rcases mod_cases mod with rfl | rfl | rfl | rfl
  · by_cases hrm : rm = 0b110#3
    · subst hrm
      rw [refDecodeRM, htwo rfl]
      rfl
    · simp [refDecodeRM, rmOperandAt, dispBytes, hrm, RmOperand.toOperand, based]
  · rw [refDecodeRM, hone rfl]
    rfl
  · rw [refDecodeRM, htwo rfl]
    rfl
  · rfl

/-- An immediate whose bytes are in the buffer is read (30_encoding.md R78). -/
theorem exists_memRead_imm (s : State) (q : Nat) (w : Bool) (h : q + immBytes w ≤ s.len) :
    ∃ imm, s.memRead q (immBytes w) = some imm := by
  cases w with
  | false => exact ⟨_, if_neg (Nat.not_lt.2 h)⟩
  | true => exact ⟨_, if_neg (Nat.not_lt.2 h)⟩

/-- With every byte in the buffer, a class with a mod-reg-rm byte gives a Decoded record that holds that operand and
counts those bytes (41_mov_regmem_reg.md R122, 42_mov_immediate.md R132). -/
theorem refDecode_of_modRegRm (s : State) (p : Nat) (b0 b1 : Byte) (h1 : p + 1 < s.len) (hb0 : s.buf.read p = b0)
    (hb1 : s.buf.read (p + 1) = b1)
    (hc : classify b0 = some .regMemToFromReg ∨ classify b0 = some .immediateToRegMem)
    (hfits : p + 2 + dispBytes (modBits b1) (rmBits b1) + immBytesAfterRm b0 ≤ s.len) :
    ∃ d, refDecode s p = .decoded d ∧
      d.totalLength = 2 + dispBytes (modBits b1) (rmBits b1) + immBytesAfterRm b0 ∧
      rmOperandOf b0 d = (rmOperandAt s (modBits b1) (rmBits b1) (wordFlag b0) (p + 2)).toOperand := by
  have hrm := refDecodeRM_eq_some s (modBits b1) (rmBits b1) (wordFlag b0) (p + 2) (by omega)
  rcases hc with hc | hc
  · have hdec := refDecodeRegMem_eq s p b0 h1
    rw [hb1, hrm, Option.map_some] at hdec
    refine ⟨_, by rw [refDecode, hb0, hc, hdec, refOrTruncated], ?_, ?_⟩
    · simp [regMemRecord, immBytesAfterRm, hc]
    · cases hd : directionFlag b0 <;> simp [rmOperandOf, regMemRecord, hc, hd]
  · have himm : immBytesAfterRm b0 = immBytes (wordFlag b0) := if_pos hc
    have hdec := refDecodeImmRegMem_eq s p b0 h1
    rw [hb1, hrm, Option.bind_some] at hdec
    obtain ⟨imm, hread⟩ := exists_memRead_imm s (p + 2 + dispBytes (modBits b1) (rmBits b1)) (wordFlag b0)
      (by omega)
    rw [hread, Option.map_some] at hdec
    refine ⟨_, by rw [refDecode, hb0, hc, hdec, refOrTruncated], ?_, ?_⟩
    · rw [immRegMemRecord, himm]
    · simp [rmOperandOf, immRegMemRecord, hc]

/-- Settles O19: the record holds the operand read from the buffer (`refDecode_of_modRegRm`), whose form is
`rmOperandAt`'s in each case of mod and rm. -/
theorem rmOperandForms : Obligations.RmOperandForms := by
  intro s b0 b1 n hrun hb0 hb1 hc hn hfits
  subst hn
  obtain ⟨hscan, hb0⟩ : s.cursor < s.len ∧ s.buf.read s.cursor = b0 := by simpa [State.bufRd] using hb0
  obtain ⟨hlt, hb1⟩ : s.cursor + 1 < s.len ∧ s.buf.read (s.cursor + 1) = b1 := by simpa [State.bufRd] using hb1
  obtain ⟨d, hdec, hlen, hop⟩ := refDecode_of_modRegRm s s.cursor b0 b1 hlt hb0 hb1 hc hfits
  refine ⟨_, d, step_of_enabled s hrun hscan, by rw [State.emit_out, stepRecord_eq_refDecode s hscan, hdec], hlen, ?_⟩
  rw [hop]
  refine ⟨fun hmod => ?_, fun hmod hrm => ?_, fun hmod hrm => ?_, fun hmod => ?_, fun hmod => ?_⟩
  · rw [hmod]
    exact ⟨rfl, rfl⟩
  · rw [hmod, hrm]
    exact ⟨rfl, _, rfl, joinLE_toNat _ _⟩
  · rw [hmod]
    simp [dispBytes, rmOperandAt, hrm, RmOperand.toOperand, based]
  · rw [hmod]
    exact ⟨rfl, _, rfl, zext16_toNat _⟩
  · rw [hmod]
    exact ⟨rfl, _, rfl, joinLE_toNat _ _⟩

/-! ### The value of a displacement -/

/-- Two's complement of a byte (00_scope.md R13). -/
theorem toInt_byte (b : Byte) : b.toInt = if b.toNat < 128 then (b.toNat : Int) else b.toNat - 256 := by
  rw [BitVec.toInt_eq_toNat_cond]
  split <;> split <;> omega

/-- Two's complement of a 16-bit field (00_scope.md R13). -/
theorem toInt_word (v : Word) : v.toInt = if v.toNat < 32768 then (v.toNat : Int) else v.toNat - 65536 := by
  rw [BitVec.toInt_eq_toNat_cond]
  split <;> split <;> omega

/-- An 8-bit displacement of a well-formed operand is below 256 (10_state.md R35). -/
theorem dispRaw_lt_of_wf (m : MemOperand) (hwf : m.wf = true) (hw : m.dispWidth = .w8) : m.dispRaw.toNat < 256 := by
  simp only [MemOperand.wf, Bool.and_eq_true] at hwf
  simpa [MemOperand.dispFits, hw] using hwf.2

/-- Settles O45: the signed readings are two's complement of the displacement's own width, and a well-formed 8-bit one
is its own low byte. -/
theorem displacementValue : Obligations.DisplacementValue := by
  intro m signed hwf
  refine ⟨fun hd => ?_, fun hd hw => ?_, fun hd hw => ?_, fun hd hw => ?_, fun hd hw => ?_⟩
  · rw [dispValue, if_pos hd]
  · simp [dispValue, hd, hw]
  · cases hwidth : m.dispWidth with
    | w0 => exact absurd hwidth hw
    | w8 | w16 => simp [dispValue, hd, hwidth]
  · have hbyte : (loByte m.dispRaw).toNat = m.dispRaw.toNat := by
      rw [loByte_toNat, Nat.mod_eq_of_lt (dispRaw_lt_of_wf m hwf hw)]
    have hvalue : dispValue true m = (loByte m.dispRaw).toInt := by simp [dispValue, hd, hw]
    rw [hvalue, toInt_byte, hbyte]
  · have hvalue : dispValue true m = m.dispRaw.toInt := by simp [dispValue, hd, hw]
    rw [hvalue, toInt_word]

/-! ### DISP_SIGNED -/

/-- Settles O46: the record of a step does not look at the parameters (`stepRecord_congr`), and the cursor update looks
at the two fallbacks only. -/
theorem dispSignedReachesNoRecord : Obligations.DispSignedReachesNoRecord := by
  intro s t b hst
  obtain ⟨hrun, hscan, rfl⟩ := (step_eq_next s t).1 hst
  have hrec : stepRecord (s.withDispSigned b) = stepRecord s := stepRecord_congr rfl rfl rfl
  rw [step_of_enabled (s.withDispSigned b) hrun hscan, hrec, State.withDispSigned_emit]

end Sys2Proof.Machine

/-! PROOFS. Family 41_mov_regmem_reg.md: RegMemToFromReg's record and its truncation, and the source's worked examples. -/

namespace Sys2Proof.Machine

/-! ### The record of RegMemToFromReg -/

/-- Settles O8: the instruction's meaning is the emission of its record (`exec_eq_emit`). -/
theorem regMemToFromRegEmitsItsRecord : Obligations.RegMemToFromRegEmitsItsRecord :=
  fun d w reg rm s => ⟨_, exec_eq_emit (.regMemToFromReg d w reg rm) s, State.emit_out s _, State.emit_cursor s _,
    s.emit_keptBy _⟩

/-! ### Truncation -/

/-- The read port answers exactly the bytes below LEN (10_state.md R41). -/
theorem bufRd_eq_some (s : State) (a : Nat) (b : Byte) : s.bufRd a = some b ↔ a < s.len ∧ s.buf.read a = b := by
  simp [State.bufRd]

/-- `DecodeRM` at an address up to LEN raises exactly when its displacement bytes do not fit (40_decode_step.md R97,
30_encoding.md R72). -/
theorem refDecodeRM_eq_none (s : State) (mod : BitVec 2) (rm : BitVec 3) (w : Bool) (q : Nat) (hq : q ≤ s.len) :
    refDecodeRM s mod rm w q = none ↔ s.len < q + dispBytes mod rm := by
  have := dispBytes_le mod rm
  rw [← decodeRM_window, Option.map_eq_none_iff, decodeRM_eq_none, State.window, Memory.bytesFrom_length]
  omega

/-- `DecodeRegMem` raises exactly when the mod-reg-rm byte or its displacement does not fit
(41_mov_regmem_reg.md R124). -/
theorem refDecodeRegMem_eq_none (s : State) (p : Nat) (b0 : Byte) :
    refDecodeRegMem s p b0 = none ↔
      s.len ≤ p + 1 ∨
        ∃ b1, s.bufRd (p + 1) = some b1 ∧ s.len < p + 2 + dispBytes (modBits b1) (rmBits b1) := by
  by_cases h : p + 1 < s.len
  · rw [refDecodeRegMem_eq s p b0 h, Option.map_eq_none_iff, refDecodeRM_eq_none _ _ _ _ _ h, bufRd_of_lt h]
    simp [h]
  · have hend : s.len ≤ p + 1 := Nat.not_lt.1 h
    exact iff_of_true (by rw [refDecodeRegMem, bufRd_eq_none hend]; rfl) (.inl hend)

/-- At an opcode byte of RegMemToFromReg the step's record is `DecodeRegMem`'s, or the truncation's
(40_decode_step.md R93). -/
theorem stepRecord_of_regMem (s : State) (hs : s.Scanning)
    (hc : classify (s.buf.read s.cursor) = some .regMemToFromReg) :
    stepRecord s =
      refOrTruncated s s.cursor .regMemToFromReg (refDecodeRegMem s s.cursor (s.buf.read s.cursor)) := by
  rw [stepRecord_eq_refDecode s hs, refDecode, hc]

/-- Settles O20: the step's record is a truncation exactly when `DecodeRegMem` raises (`stepRecord_of_regMem`), which it
does when a field does not fit (`refDecodeRegMem_eq_none`). -/
theorem regMemTruncation : Obligations.RegMemTruncation := by
  intro s b0 hrun hb0 hc
  obtain ⟨hscan, rfl⟩ := (bufRd_eq_some s _ b0).1 hb0
  refine ⟨_, _, step_of_enabled s hrun hscan, State.emit_out s _, s.emit_keptBy _, fun hshort => ?_,
    fun b1 hb1 hfits => ?_⟩
  · rw [stepRecord_of_regMem s hscan hc, (refDecodeRegMem_eq_none _ _ _).2 hshort]
    rfl
  · rw [stepRecord_of_regMem s hscan hc]
    cases hd : refDecodeRegMem s s.cursor (s.buf.read s.cursor) with
    | some d => exact ⟨d, rfl⟩
    | none =>
      rcases (refDecodeRegMem_eq_none _ _ _).1 hd with hmissing | ⟨b, hb, hshort⟩
      · rw [bufRd_eq_none hmissing] at hb1
        cases hb1
      · obtain rfl : b = b1 := Option.some.inj (hb.symm.trans hb1)
        omega

/-! ### The first step of a run -/

/-- Bytes stored from an address on are the window there. -/
theorem Memory.bytesFrom_writeBytes (m : Memory) (a n : Nat) (bs : List Byte) (hm : m.wf) (hn : n ≤ bs.length) :
    (m.writeBytes a bs).bytesFrom a n = bs.take n := by
  refine List.ext_getElem (by simp [hn]) fun k hk _ => ?_
  rw [Memory.bytesFrom_length] at hk
  have hget := Memory.getElem?_bytesFrom (m.writeBytes a bs) a n k hk
  rw [Memory.read_writeBytes _ _ _ _ hm, if_pos (by omega)] at hget
  rw [List.getElem_eq_iff, hget, List.getElem_take]
  simp [show k < bs.length by omega]

/-- The first fetch of a run is the buffer's first six bytes (10_state.md R22, 70_reset_and_hazards.md R220). -/
theorem fetch_boot (s : State) (bytes : List Byte) (p : Params) :
    (s.boot bytes p).fetch = bytes.take maxInstrBytes := by
  have hempty : Memory.wf [] := ⟨.nil, by simp⟩
  calc (s.boot bytes p).fetch
      = (Memory.writeBytes [] 0 bytes).bytesFrom 0 (min maxInstrBytes bytes.length) := rfl
    _ = bytes.take maxInstrBytes := by
      rw [Memory.bytesFrom_writeBytes _ _ _ _ hempty (Nat.min_le_right _ _), ← List.take_eq_take_min]

/-- A run under legal parameters whose buffer begins with an instruction starts with that instruction's record. -/
theorem step_boot_of_decode (s : State) (bytes : List Byte) (p : Params) (i : Instr) (rest : List Byte)
    (hlegal : p.legalFor bytes.length = true) (hdec : decode (bytes.take maxInstrBytes) = .instr i rest) :
    ∃ t, step (s.boot bytes p) = .next t ∧ t.out = [instrRecord i (s.boot bytes p)] ∧
      t.text = renderRecord p.dispSigned (instrRecord i (s.boot bytes p)) ++ "\n" := by
  have hscan : (s.boot bytes p).Scanning := by
    cases bytes with
    | nil => cases hdec
    | cons b bs => exact Nat.succ_pos bs.length
  have hrec : stepRecord (s.boot bytes p) = instrRecord i (s.boot bytes p) := by
    rw [stepRecord, fetch_boot, hdec]
  refine ⟨_, step_of_enabled _ ⟨rfl, hlegal⟩ hscan, ?_, ?_⟩
  · rw [hrec]
    rfl
  · rw [hrec]
    exact String.append_empty

/-- Parameters legal beside a buffer are legal beside a shorter one (00_scope.md R9). -/
theorem legalFor_of_le {p : Params} {m n : Nat} (h : p.legalFor n = true) (hmn : m ≤ n) : p.legalFor m = true := by
  simp only [Params.legalFor, Bool.and_eq_true, decide_eq_true_eq] at h ⊢
  exact ⟨h.1, Nat.lt_of_le_of_lt hmn h.2⟩

/-- Settles O53: each buffer begins with one instruction, whose record the first step emits (`step_boot_of_decode`). -/
theorem workedExamplesOfTheSource : Obligations.WorkedExamplesOfTheSource := by
  intro p hlegal
  refine ⟨?_, ?_, ?_⟩
  · obtain ⟨t, hst, hout, htext⟩ := step_boot_of_decode State.reset [0x89#8, 0xD8#8] p
      (.regMemToFromReg false true .bx (.reg .ax)) [] (legalFor_of_le hlegal (by decide)) (by decide)
    exact ⟨t, hst, hout, htext⟩
  · obtain ⟨t, hst, hout, -⟩ := step_boot_of_decode State.reset [0x8B#8, 0x06#8, 0x34#8, 0x12#8] p
      (.regMemToFromReg true true .ax (.mem (directAddress 0x1234#16))) [] hlegal (by decide)
    exact ⟨t, hst, hout⟩
  · obtain ⟨t, hst, hout, htext⟩ := step_boot_of_decode State.reset [0xB8#8, 0x01#8, 0x00#8] p
      (.immediateToReg true .ax 1#16) [] (legalFor_of_le hlegal (by decide)) (by decide)
    exact ⟨t, hst, hout, htext⟩

end Sys2Proof.Machine

/-! PROOFS. Family 42_mov_immediate.md: the records of the two immediate classes, their size markers and their
truncation. -/

namespace Sys2Proof.Machine

/-! ### The records of the immediate classes -/

/-- Settles O9: the instruction's meaning is the emission of its record (`exec_eq_emit`), which does not hold `x`. -/
theorem immediateToRegMemEmitsItsRecord : Obligations.ImmediateToRegMemEmitsItsRecord :=
  fun w x rm imm s => ⟨_, exec_eq_emit (.immediateToRegMem w x rm imm) s, State.emit_out s _, State.emit_cursor s _,
    s.emit_keptBy _⟩

/-- Settles O10: the instruction's meaning is the emission of its record (`exec_eq_emit`). -/
theorem immediateToRegEmitsItsRecord : Obligations.ImmediateToRegEmitsItsRecord :=
  fun w reg imm s => ⟨_, exec_eq_emit (.immediateToReg w reg imm) s, State.emit_out s _, State.emit_cursor s _,
    s.emit_keptBy _⟩

/-! ### Size markers -/

/-- An ImmediateToRegMem has the WordFlag of the opcode byte it is decoded from (30_encoding.md R73). -/
theorem wordFlag_of_decode_immRegMem (b0 : Byte) (bs : List Byte) (w : Bool) (x : BitVec 3) (rm : RmOperand)
    (imm : Word) (rest : List Byte) (h : decode (b0 :: bs) = .instr (.immediateToRegMem w x rm imm) rest) :
    wordFlag b0 = w := by
  obtain ⟨-, hbytes⟩ := (decode_eq_instr _ _ _).1 h
  have hb0 : b0 = opcodeByte (.immediateToRegMem w x rm imm) := List.head_eq_of_cons_eq hbytes
  rw [hb0, opcodeByte, wordFlag_opcodeIRM]

/-- A step that emits a Decoded record emits that of the instruction it decodes. -/
theorem instrRecord_of_stepRecord_decoded (s : State) (d : DecodedInstruction) (h : stepRecord s = .decoded d) :
    ∃ i rest, decode s.fetch = .instr i rest ∧ instrRecord i s = .decoded d := by
  obtain ⟨i, rest, hdec, -⟩ := decode_of_stepRecord_decoded s d h
  rw [stepRecord, hdec] at h
  exact ⟨i, rest, hdec, h⟩

/-- Settles O23: the record is that of the decoded instruction, whose marker is its own WordFlag's, and that is the
opcode byte's (`wordFlag_of_decode_immRegMem`). -/
theorem sizeMarkerByClass : Obligations.SizeMarkerByClass := by
  intro s t d hst hout
  obtain ⟨-, hscan, rfl⟩ := (step_eq_next s t).1 hst
  have hrec : stepRecord s = .decoded d := by simpa using hout
  obtain ⟨i, rest, hdec, hinstr⟩ := instrRecord_of_stepRecord_decoded s d hrec
  cases i with
  | regMemToFromReg => cases hinstr; exact ⟨nofun, nofun⟩
  | immediateToRegMem w x rm imm =>
    cases hinstr
    rw [fetch_cons s hscan] at hdec
    exact ⟨fun _ => ⟨_, rfl, by rw [wordFlag_of_decode_immRegMem _ _ _ _ _ _ _ hdec, markerOf]⟩, nofun⟩
  | immediateToReg => cases hinstr; exact ⟨nofun, fun _ => ⟨_, rfl, rfl⟩⟩
  | memToAcc | accToMem | regMemToSegReg | segRegToRegMem => cases hinstr

/-! ### Truncation -/

/-- An immediate's read raises exactly when not all of its bytes are in the buffer (20_memory.md R48, 30_encoding.md
R78). -/
theorem memRead_imm_eq_none (s : State) (q : Nat) (w : Bool) :
    s.memRead q (immBytes w) = none ↔ s.len < q + immBytes w := by
  cases w with
  | false => exact memRead_one_eq_none s q
  | true => exact memRead_two_eq_none s q

/-- `DecodeImmRegMem` raises exactly when the mod-reg-rm byte is missing, or displacement and immediate do not both fit
after it (42_mov_immediate.md R135). -/
theorem refDecodeImmRegMem_eq_none (s : State) (p : Nat) (b0 : Byte) :
    refDecodeImmRegMem s p b0 = none ↔
      s.len ≤ p + 1 ∨
        ∃ b1, s.bufRd (p + 1) = some b1 ∧
          s.len < p + 2 + dispBytes (modBits b1) (rmBits b1) + immBytes (wordFlag b0) := by
  by_cases h : p + 1 < s.len
  · rw [refDecodeImmRegMem_eq s p b0 h, bufRd_of_lt h]
    by_cases hdisp : p + 2 + dispBytes (modBits (s.buf.read (p + 1))) (rmBits (s.buf.read (p + 1))) ≤ s.len
    · rw [refDecodeRM_eq_some s _ _ _ _ hdisp, Option.bind_some, Option.map_eq_none_iff, memRead_imm_eq_none]
      simp [h]
    · rw [(refDecodeRM_eq_none s _ _ _ _ h).2 (Nat.not_le.1 hdisp)]
      exact iff_of_true rfl (.inr ⟨_, rfl, by omega⟩)
  · have hend : s.len ≤ p + 1 := Nat.not_lt.1 h
    exact iff_of_true (by rw [refDecodeImmRegMem, bufRd_eq_none hend]; rfl) (.inl hend)

/-- `DecodeImmReg` raises exactly when its immediate does not fit (42_mov_immediate.md R144). -/
theorem refDecodeImmReg_eq_none (s : State) (p : Nat) (b0 : Byte) :
    refDecodeImmReg s p b0 = none ↔ s.len < p + 1 + immBytes (wordFlagIR b0) := by
  rw [refDecodeImmReg_eq, Option.map_eq_none_iff, memRead_imm_eq_none]

/-- A step whose record is that of a supported class's reader `y` emits the truncation where the reader raised, and a
Decoded record where it did not (40_decode_step.md R93). -/
theorem exists_step_of_refOrTruncated (s : State) (hrun : s.Runnable) (hscan : s.Scanning) (c : OpcodeClass)
    (y : Option DecodedInstruction) (hrec : refDecode s s.cursor = refOrTruncated s s.cursor c y) :
    ∃ t r, step s = .next t ∧ t.out = s.out ++ [r] ∧ s.KeptBy t ∧
      (y = none → r = refError s s.cursor .truncatedInstruction (some c)) ∧ (y ≠ none → ∃ d, r = .decoded d) := by
  refine ⟨_, _, step_of_enabled s hrun hscan, State.emit_out s _, s.emit_keptBy _, ?_⟩
  rw [stepRecord_eq_refDecode s hscan, hrec]
  cases y with
  | none => exact ⟨fun _ => rfl, fun hn => absurd rfl hn⟩
  | some d => exact ⟨nofun, fun _ => ⟨d, rfl⟩⟩

/-- Settles O21: the step's record is a truncation exactly when `DecodeImmRegMem` raises
(`exists_step_of_refOrTruncated`), and where the displacement does not fit, neither does the immediate after it
(`refDecodeImmRegMem_eq_none`). -/
theorem immRegMemTruncation : Obligations.ImmRegMemTruncation := by
  intro s b0 hrun hb0 hc
  obtain ⟨hscan, rfl⟩ := (bufRd_eq_some s _ b0).1 hb0
  obtain ⟨t, r, hst, hout, hkept, htrunc, hdec⟩ := exists_step_of_refOrTruncated s hrun hscan .immediateToRegMem
    (refDecodeImmRegMem s s.cursor (s.buf.read s.cursor)) (by rw [refDecode, hc])
  refine ⟨t, r, hst, hout, hkept, fun hshort => htrunc ((refDecodeImmRegMem_eq_none _ _ _).2 ?_),
    fun b1 hb1 hfits => hdec fun hnone => ?_⟩
  · rcases hshort with hmissing | ⟨b1, hb1, hdisp | himm⟩
    · exact .inl hmissing
    · exact .inr ⟨b1, hb1, Nat.lt_add_right _ hdisp⟩
    · exact .inr ⟨b1, hb1, himm⟩
  · rcases (refDecodeImmRegMem_eq_none _ _ _).1 hnone with hmissing | ⟨b, hb, hshort⟩
    · exact absurd ((bufRd_eq_some _ _ _).1 hb1).1 (Nat.not_lt.2 hmissing)
    · obtain rfl : b = b1 := Option.some.inj (hb.symm.trans hb1)
      exact Nat.not_lt.2 hfits hshort

/-- Settles O22: the step's record is a truncation exactly when `DecodeImmReg` raises
(`exists_step_of_refOrTruncated`), which it does when the immediate does not fit (`refDecodeImmReg_eq_none`). -/
theorem immRegTruncation : Obligations.ImmRegTruncation := by
  intro s b0 hrun hb0 hc
  obtain ⟨hscan, rfl⟩ := (bufRd_eq_some s _ b0).1 hb0
  obtain ⟨t, r, hst, hout, hkept, htrunc, hdec⟩ := exists_step_of_refOrTruncated s hrun hscan .immediateToReg
    (refDecodeImmReg s s.cursor (s.buf.read s.cursor)) (by rw [refDecode, hc])
  exact ⟨t, r, hst, hout, hkept, fun hshort => htrunc ((refDecodeImmReg_eq_none _ _ _).2 hshort),
    fun hfits => hdec fun hnone => Nat.not_lt.2 hfits ((refDecodeImmReg_eq_none _ _ _).1 hnone)⟩

end Sys2Proof.Machine

/-! PROOFS. Family 43_mov_unsupported.md: the record and the fallback advance of the four unsupported classes. -/

namespace Sys2Proof.Machine

/-- The record of an unsupported class's instruction names its opcode byte and its class (43_mov_unsupported.md R150,
log entry 13). -/
theorem instrRecord_of_unsupported (i : Instr) (s : State) (hu : i.cls.unsupported = true) :
    instrRecord i s = s.errorRecord .unsupportedVariant (opcodeByte i) (some i.cls) := by
  cases i with
  | regMemToFromReg | immediateToRegMem | immediateToReg => cases hu
  | memToAcc | accToMem | regMemToSegReg | segRegToRegMem => rfl

/-- After an unsupported variant's record the cursor moves by FALLBACK_UNSUPPORTED, clamped to LEN
(40_decode_step.md R92, decision D7). -/
theorem nextCursor_of_unsupportedVariant (s : State) (b0 : Byte) (c : Option OpcodeClass) :
    nextCursor s.params s.len s.cursor (s.errorRecord .unsupportedVariant b0 c) =
      min (s.cursor + s.params.fallbackUnsupported) s.len := rfl

/-- Settles O11: each listed instruction is of an unsupported class and has the listed opcode byte, so its meaning is
the emission of the record that names both (`exec_eq_emit`, `instrRecord_of_unsupported`). -/
theorem unsupportedVariantsEmitTheirRecord : Obligations.UnsupportedVariantsEmitTheirRecord := by
  intro i b0 s hlisted
  obtain ⟨hu, rfl⟩ : i.cls.unsupported = true ∧ b0 = opcodeByte i := by
    rcases hlisted with h | h | h | h | h | h <;> cases h <;> decide
  have hexec := exec_eq_emit i s
  rw [instrRecord_of_unsupported i s hu] at hexec
  exact ⟨_, hexec, State.emit_out s _,
    (State.emit_cursor s _).trans (nextCursor_of_unsupportedVariant s _ _), s.emit_keptBy _⟩

end Sys2Proof.Machine

/-! PROOFS. Family 48_rendering.md: the decimal and the binary text, the text of a displacement, and the line of a
record. First that `dec` writes the decimal digits of Lean's own library, whose lemmas then speak of it. -/

namespace Sys2Proof.Machine

/-! ### Decimal text -/

/-- A digit's character is that of Lean's library. -/
theorem digitChar_eq_natDigitChar : ∀ d < 10, digitChar d = Nat.digitChar d := by decide

/-- With fuel above `n`, the digits put in front of `acc` are the decimal digits of `n`. -/
theorem decDigits_eq_toDigits (fuel n : Nat) (acc : List Char) (h : n < fuel) :
    decDigits fuel n acc = Nat.toDigits 10 n ++ acc := by
  induction fuel generalizing n acc with
  | zero => cases h
  | succ fuel ih =>
    rw [decDigits]
    split
    · next hlt => rw [Nat.toDigits_of_lt_base hlt, digitChar_eq_natDigitChar n hlt, List.singleton_append]
    · next hge =>
      rw [ih (n / 10) _ (by omega), Nat.toDigits_of_base_le (by decide) (Nat.not_lt.1 hge),
        digitChar_eq_natDigitChar _ (Nat.mod_lt n (by decide)), List.append_assoc, List.singleton_append]

/-- The characters of `dec(n)` are the decimal digits of `n` (48_rendering.md R169). -/
@[simp] theorem dec_toList (n : Nat) : (dec n).toList = Nat.toDigits 10 n := by
  rw [dec, String.toList_ofList, decDigits_eq_toDigits _ _ _ n.lt_succ_self, List.append_nil]

/-- Reading decimal digits is the library's reading of them. -/
theorem readDec_eq_ofDigitChars (cs : List Char) : readDec cs = Nat.ofDigitChars 10 cs 0 :=
  Nat.ofDigitChars_eq_foldl.symm

/-- Every character of a decimal text is a digit from 0 to 9. -/
theorem digit_of_mem_toDigits {n : Nat} {c : Char} (h : c ∈ Nat.toDigits 10 n) : '0' ≤ c ∧ c ≤ '9' := by
  simpa [Char.isDigit, Char.le_def] using Nat.isDigit_of_mem_toDigits (by decide) (by decide) h

/-- The decimal digits of a positive number begin with its leading digit, which is not 0. -/
theorem toDigits_eq_cons (n : Nat) (hn : n ≠ 0) : ∃ c cs, Nat.toDigits 10 n = c :: cs ∧ c ≠ '0' := by
  induction n using Nat.strongRecOn with
  | ind n ih =>
    rcases Nat.lt_or_ge n 10 with hlt | hge
    · exact ⟨_, [], Nat.toDigits_of_lt_base hlt, mt Nat.digitChar_eq_zero.1 hn⟩
    · obtain ⟨c, cs, hcs, hc⟩ := ih (n / 10) (by omega) (by omega)
      exact ⟨c, _, by rw [Nat.toDigits_of_base_le (by decide) hge, hcs, List.cons_append], hc⟩

/-- Settles O47: the characters are the library's decimal digits (`dec_toList`), which read back
(`Nat.ofDigitChars_toDigits`) and begin with the leading digit (`toDigits_eq_cons`). -/
theorem decimalTextReadsBack : Obligations.DecimalTextReadsBack := by
  intro n
  rw [dec_toList]
  refine ⟨?_, fun c => digit_of_mem_toDigits, fun hn => ?_, toDigits_eq_cons n⟩
  · rw [readDec_eq_ofDigitChars, Nat.ofDigitChars_toDigits (by decide) (by decide)]
  · subst hn
    rfl

/-! ### Binary text -/

/-- The character of a bit. -/
def bitChar (b : Bool) : Char := if b then '1' else '0'

theorem bitChar_cases (b : Bool) : bitChar b = '0' ∨ bitChar b = '1' := by
  cases b <;> decide

/-- Reading on from the number `acc` the `k` low bits of a number, most significant first. -/
theorem foldl_bitChar_range_reverse (n k acc : Nat) :
    ((List.range k).reverse.map fun i => bitChar (n.testBit i)).foldl
      (fun m c => 2 * m + if c = '1' then 1 else 0) acc = 2 ^ k * acc + n % 2 ^ k := by
  induction k generalizing acc with
  | zero => simp [Nat.mod_one]
  | succ k ih =>
    have hbit : (if bitChar (n.testBit k) = '1' then 1 else 0) = (n.testBit k).toNat := by
      cases n.testBit k <;> rfl
    rw [List.range_succ, List.reverse_append, List.reverse_singleton, List.singleton_append, List.map_cons,
      List.foldl_cons, ih, hbit, Nat.toNat_testBit, Nat.mod_pow_succ]
    ring

/-- The characters of `bin8` are the bits of the byte, from bit 7 down to bit 0 (48_rendering.md R174). -/
theorem bin8_toList (b : Byte) :
    (bin8 b).toList = (List.range 8).reverse.map fun i => bitChar (b.toNat.testBit i) :=
  String.toList_ofList

/-- Settles O50: the characters are the eight bits, most significant first (`bin8_toList`), which read as the byte
modulo 256 (`foldl_bitChar_range_reverse`). -/
theorem binaryTextReadsBack : Obligations.BinaryTextReadsBack := by
  intro b
  rw [bin8_toList]
  refine ⟨by simp, fun c hc => ?_, ?_⟩
  · obtain ⟨i, -, rfl⟩ := List.mem_map.1 hc
    exact bitChar_cases _
  · rw [readBin, foldl_bitChar_range_reverse, Nat.mul_zero, Nat.zero_add, Nat.mod_eq_of_lt b.isLt]

/-! ### The text of a displacement -/

/-- A memory operand with a base renders as the base with its displacement's value (48_rendering.md R167). -/
theorem renderOp_mem_of_base {m : MemOperand} {b : EffectiveAddressBase} (signed : Bool) (hb : m.base = some b) :
    renderOp signed (.mem m) = baseWithDisp (baseText b) (dispValue signed m) := by
  rw [renderOp, renderMem, hb]

theorem baseWithDisp_zero (b : String) : baseWithDisp b 0 = "[" ++ b ++ "]" := rfl

theorem baseWithDisp_of_pos (b : String) {v : Int} (h : 0 < v) :
    baseWithDisp b v = "[" ++ b ++ " + " ++ dec v.natAbs ++ "]" := by
  rw [baseWithDisp, if_neg h.ne', if_pos h]

theorem baseWithDisp_of_neg (b : String) {v : Int} (h : v < 0) :
    baseWithDisp b v = "[" ++ b ++ " - " ++ dec v.natAbs ++ "]" := by
  rw [baseWithDisp, if_neg h.ne, if_neg h.not_gt]

/-- A term after the base makes the text longer than the bare base. -/
theorem brackets_with_term_ne (b sign d : String) (h : 0 < sign.length) :
    "[" ++ b ++ sign ++ d ++ "]" ≠ "[" ++ b ++ "]" := fun heq => by
  have hlen := congrArg String.length heq
  simp only [String.length_append] at hlen
  omega

/-- The displacement's term is left out exactly for the value 0 (48_rendering.md R170). -/
theorem baseWithDisp_eq_bare_iff (b : String) (v : Int) : baseWithDisp b v = "[" ++ b ++ "]" ↔ v = 0 := by
  rcases lt_trichotomy v 0 with hneg | rfl | hpos
  · rw [baseWithDisp_of_neg b hneg]
    exact iff_of_false (brackets_with_term_ne b " - " _ (by decide)) hneg.ne
  · exact iff_of_true (baseWithDisp_zero b) rfl
  · rw [baseWithDisp_of_pos b hpos]
    exact iff_of_false (brackets_with_term_ne b " + " _ (by decide)) hpos.ne'

/-- A well-formed memory operand with a base is no direct address (10_state.md R35). -/
theorem isDirectAddress_of_base {m : MemOperand} {b : EffectiveAddressBase} (hwf : m.wf = true)
    (hb : m.base = some b) : m.isDirectAddress = false := by
  simp only [MemOperand.wf, Bool.and_eq_true] at hwf
  simpa [MemOperand.directHasNoBase, hb] using hwf.1.1

/-- A well-formed displacement of no bytes is 0 (10_state.md R35). -/
theorem dispRaw_eq_zero_of_wf {m : MemOperand} (hwf : m.wf = true) (hw : m.dispWidth = .w0) : m.dispRaw = 0 := by
  simp only [MemOperand.wf, Bool.and_eq_true] at hwf
  simpa [MemOperand.dispFits, hw] using hwf.2

/-- The value of a well-formed displacement is 0 exactly when its field is, at every width and under either value of
DISP_SIGNED (40_decode_step.md R104). -/
theorem dispValue_eq_zero_iff {m : MemOperand} (signed : Bool) (hwf : m.wf = true)
    (hdirect : m.isDirectAddress = false) : dispValue signed m = 0 ↔ m.dispRaw = 0 := by
  obtain ⟨-, hnone, hunsigned, hbyte, hword⟩ := displacementValue m signed hwf
  have hraw : m.dispRaw = 0 ↔ m.dispRaw.toNat = 0 := BitVec.toNat_eq
  have hlt := m.dispRaw.isLt
  cases hw : m.dispWidth with
  | w0 => exact iff_of_true (hnone hdirect hw) (dispRaw_eq_zero_of_wf hwf hw)
  | w8 =>
    have hlt8 := dispRaw_lt_of_wf m hwf hw
    cases signed with
    | false => rw [hunsigned hdirect (by simp [hw]), hraw, Int.natCast_eq_zero]
    | true => rw [hbyte hdirect hw, hraw]; split <;> omega
  | w16 =>
    cases signed with
    | false => rw [hunsigned hdirect (by simp [hw]), hraw, Int.natCast_eq_zero]
    | true => rw [hword hdirect hw, hraw]; split <;> omega

/-- Settles O48: the term is left out exactly for the value 0 (`baseWithDisp_eq_bare_iff`), which is that of the raw
displacement 0 alone (`dispValue_eq_zero_iff`). -/
theorem zeroDisplacementIsSuppressed : Obligations.ZeroDisplacementIsSuppressed := by
  intro m b signed hwf hb
  rw [renderOp_mem_of_base signed hb, baseWithDisp_eq_bare_iff,
    dispValue_eq_zero_iff signed hwf (isDirectAddress_of_base hwf hb)]

/-- A displacement with a positive value is added. -/
theorem renderOp_mem_of_dispValue_pos {m : MemOperand} {b : EffectiveAddressBase} {signed : Bool} {n : Nat}
    (hb : m.base = some b) (hn : 0 < n) (hv : dispValue signed m = n) :
    renderOp signed (.mem m) = "[" ++ baseText b ++ " + " ++ dec n ++ "]" := by
  rw [renderOp_mem_of_base signed hb, hv, baseWithDisp_of_pos _ (Int.natCast_pos.2 hn), Int.natAbs_natCast]

/-- A displacement with a negative value is subtracted. -/
theorem renderOp_mem_of_dispValue_neg {m : MemOperand} {b : EffectiveAddressBase} {signed : Bool} {n : Nat}
    (hb : m.base = some b) (hn : 0 < n) (hv : dispValue signed m = -n) :
    renderOp signed (.mem m) = "[" ++ baseText b ++ " - " ++ dec n ++ "]" := by
  rw [renderOp_mem_of_base signed hb, hv, baseWithDisp_of_neg _ (by omega), Int.natAbs_neg, Int.natAbs_natCast]

/-- Settles O49: with its top bit set a displacement's value is negative under DISP_SIGNED and positive without it
(`displacementValue`). -/
theorem negativeDisplacementText : Obligations.NegativeDisplacementText := by
  intro m b hwf hb
  have hdirect := isDirectAddress_of_base hwf hb
  obtain ⟨-, -, hunsigned, hbyte, hword⟩ := displacementValue m true hwf
  refine ⟨fun hw htop => ⟨?_, ?_⟩, fun hw htop => ⟨?_, ?_⟩⟩
  · have hlt := dispRaw_lt_of_wf m hwf hw
    refine renderOp_mem_of_dispValue_neg hb (by omega) ?_
    rw [hbyte hdirect hw, if_neg (by omega)]; omega
  · exact renderOp_mem_of_dispValue_pos hb (by omega) (hunsigned hdirect (by simp [hw]))
  · have hlt := m.dispRaw.isLt
    refine renderOp_mem_of_dispValue_neg hb (by omega) ?_
    rw [hword hdirect hw, if_neg (by omega)]; omega
  · exact renderOp_mem_of_dispValue_pos hb (by omega) (hunsigned hdirect (by simp [hw]))

/-! ### One line for each record -/

/-- A text of one line: it holds no line feed. -/
def IsOneLine (t : String) : Prop := '\n' ∉ t.toList

@[simp] theorem isOneLine_append (t u : String) : IsOneLine (t ++ u) ↔ IsOneLine t ∧ IsOneLine u := by
  simp [IsOneLine, not_or]

@[simp] theorem isOneLine_dec (n : Nat) : IsOneLine (dec n) := fun h =>
  absurd (digit_of_mem_toDigits (dec_toList n ▸ h)).1 (by decide)

@[simp] theorem isOneLine_bin8 (b : Byte) : IsOneLine (bin8 b) := fun h => by
  obtain ⟨i, -, hi⟩ := List.mem_map.1 (bin8_toList b ▸ h)
  cases hbit : b.toNat.testBit i <;> simp [bitChar, hbit] at hi

@[simp] theorem isOneLine_regName (r : Reg) : IsOneLine (regName r) := by
  cases r <;> simp [IsOneLine, regName]

@[simp] theorem isOneLine_baseText (b : EffectiveAddressBase) : IsOneLine (baseText b) := by
  cases b <;> simp [IsOneLine, baseText]

@[simp] theorem isOneLine_markerText (k : SizeMarker) : IsOneLine (markerText k) := by
  cases k <;> simp [IsOneLine, markerText]

@[simp] theorem isOneLine_className? (c : Option OpcodeClass) : IsOneLine (className? c) := by
  rcases c with _ | c
  · simp [IsOneLine, className?]
  · cases c <;> simp [IsOneLine, className?, className]

theorem isOneLine_baseWithDisp (b : String) (v : Int) (hb : IsOneLine b) : IsOneLine (baseWithDisp b v) := by
  have hlit : ∀ t ∈ ["[", " + ", " - ", "]"], IsOneLine t := by simp [IsOneLine]
  rw [baseWithDisp]
  split
  · simp [hb, hlit]
  · split <;> simp [hb, hlit]

theorem isOneLine_renderOp (signed : Bool) (o : Operand) : IsOneLine (renderOp signed o) := by
  cases o with
  | reg r => exact isOneLine_regName r
  | mem m =>
    rw [renderOp, renderMem]
    split
    · exact isOneLine_dec _
    · exact isOneLine_baseWithDisp _ _ (isOneLine_baseText _)
  | imm i => simp [renderOp]

theorem isOneLine_renderError (e : DecodeError) : IsOneLine (renderError e) := by
  have hlit : ∀ t ∈ ["Invalid instruction: ", "Unsupported variant: ", " (", ")", "Truncated instruction: ", " at ",
    " of buffer left)"], IsOneLine t := by simp [IsOneLine]
  rw [renderError]
  split <;> simp [hlit]

/-- The text of a record holds no line feed (48_rendering.md R165, R177). -/
theorem isOneLine_renderRecord (signed : Bool) (r : StepRecord) : IsOneLine (renderRecord signed r) := by
  cases r with
  | decoded d =>
    have hlit : ∀ t ∈ ["mov, ", ", "], IsOneLine t := by simp [IsOneLine]
    simp [renderRecord, isOneLine_renderOp, hlit]
  | error e => exact isOneLine_renderError e

/-- The text of records holds one line feed for each (48_rendering.md R177). -/
theorem count_lineFeed_renderLines (signed : Bool) (rs : List StepRecord) :
    (renderLines signed rs).toList.count '\n' = rs.length := by
  induction rs with
  | nil => rfl
  | cons r rs ih =>
    have hline : (renderRecord signed r).toList.count '\n' = 0 :=
      List.count_eq_zero.2 (isOneLine_renderRecord signed r)
    simp [renderLines, hline, ih]

/-- Settles O51: no part of a record's text holds a line feed (`isOneLine_renderRecord`), so a run's text holds those
that end its lines (`count_lineFeed_renderLines`). -/
theorem oneLinePerRecord : Obligations.OneLinePerRecord :=
  ⟨fun r signed => isOneLine_renderRecord signed r, fun s => count_lineFeed_renderLines s.params.dispSigned s.out⟩

/-! ### Two records with one text -/

/-- Settles O52: the first step of each run emits its instruction's record (`step_boot_of_decode`); the two differ in
their class, and a direct address renders like an immediate. -/
theorem textDoesNotTellInstructionsApart : Obligations.TextDoesNotTellInstructionsApart := by
  intro p hlegal
  obtain ⟨t, htstep, htout, httext⟩ := step_boot_of_decode State.reset [0x8B#8, 0x06#8, 0x34#8, 0x12#8] p
    (.regMemToFromReg true true .ax (.mem (directAddress 0x1234#16))) [] hlegal (by decide)
  obtain ⟨u, hustep, huout, hutext⟩ := step_boot_of_decode State.reset [0xB8#8, 0x34#8, 0x12#8] p
    (.immediateToReg true .ax 0x1234#16) [] (legalFor_of_le hlegal (by decide)) (by decide)
  have htline : t.text = "mov, ax, 4660\n" := httext
  have huline : u.text = "mov, ax, 4660\n" := hutext
  refine ⟨t, u, htstep, hustep, ?_, htline.trans huline.symm, htline⟩
  rw [htout, huout]
  simp [instrRecord, recordRegMem, recordImmReg]

end Sys2Proof.Machine

/-! PROOFS. Family 60_exceptions.md: a step that raises a decode error, the two fallback advances, and the end of a run
at a truncation. -/

namespace Sys2Proof.Machine

/-- A step whose record is an error record is the raising of that error (60_exceptions.md R196). -/
theorem step_eq_raise (s : State) (k : ErrorKind) (b0 : Byte) (c : Option OpcodeClass) (hrun : s.Runnable)
    (hscan : s.Scanning) (hrec : stepRecord s = s.errorRecord k b0 c) : step s = .next (s.raise k b0 c) := by
  rw [step_of_enabled s hrun hscan, hrec, State.raise_eq_emit]

/-- After an unrecognized byte's record the cursor moves by FALLBACK_UNRECOGNIZED, clamped to LEN
(40_decode_step.md R92, decision D7). -/
theorem nextCursor_of_unrecognizedOpcode (s : State) (b0 : Byte) (c : Option OpcodeClass) :
    nextCursor s.params s.len s.cursor (s.errorRecord .unrecognizedOpcode b0 c) =
      min (s.cursor + s.params.fallbackUnrecognized) s.len := rfl

/-- Settles O26: the step raises UnrecognizedOpcode (`stepRecord_of_unrecognized`), which emits the record and moves the
cursor by its fallback. -/
theorem unrecognizedByteIsReported : Obligations.UnrecognizedByteIsReported := by
  intro s b0 hrun hb0 hc
  obtain ⟨hscan, rfl⟩ := (bufRd_eq_some s _ b0).1 hb0
  have hst := step_eq_raise s _ _ _ hrun hscan (stepRecord_of_unrecognized s hscan hc)
  exact ⟨_, hst, State.emit_out s _,
    (State.emit_cursor s _).trans (nextCursor_of_unrecognizedOpcode s _ _), s.emit_keptBy _⟩

/-- The four classes the block classifies and does not decode (43_mov_unsupported.md R150). -/
theorem unsupported_iff (c : OpcodeClass) :
    c.unsupported = true ↔ c = .memToAcc ∨ c = .accToMem ∨ c = .regMemToSegReg ∨ c = .segRegToRegMem := by
  cases c <;> decide

/-- Settles O27: whatever follows the opcode byte, the step raises UnsupportedVariant (`stepRecord_of_unsupported`),
which emits the record and moves the cursor by its fallback. -/
theorem unsupportedClassIsReported : Obligations.UnsupportedClassIsReported := by
  intro s b0 c hrun hb0 hc hlisted
  obtain ⟨hscan, rfl⟩ := (bufRd_eq_some s _ b0).1 hb0
  have hrec := stepRecord_of_unsupported s hscan c hc ((unsupported_iff c).2 hlisted)
  exact ⟨_, step_eq_raise s _ _ _ hrun hscan hrec, State.emit_out s _,
    (State.emit_cursor s _).trans (nextCursor_of_unsupportedVariant s _ _), s.emit_keptBy _⟩

/-- A step that emits a truncation leaves the cursor at LEN (60_exceptions.md R194, decision D8). -/
theorem cursor_eq_len_of_truncation {s t : State} {e : DecodeError} (hst : step s = .next t)
    (hout : t.out = s.out ++ [.error e]) (hkind : e.kind = .truncatedInstruction) : t.cursor = t.len := by
  obtain ⟨hkept, -⟩ := stepWritesOnlyCursorAndOutput s t hst
  obtain ⟨r, hr, hcursor⟩ := stepMovesTheCursorByTheRecordsAdvance s t hst
  obtain rfl : r = .error e := List.singleton_inj.1 (List.append_cancel_left (hr.symm.trans hout))
  rw [hkept.len]
  simpa only [hkind] using hcursor

/-- Settles O28: the cursor is at LEN (`cursor_eq_len_of_truncation`) in a run that still has a meaning
(`step_runnable`), so the walker is Terminal. -/
theorem truncationEndsTheRun : Obligations.TruncationEndsTheRun := by
  intro s t e hst hout hkind
  have hend := cursor_eq_len_of_truncation hst hout hkind
  exact ⟨hend, (done_iff t).2 hend.ge, terminalStepIsRefused t (step_runnable hst) hend.ge⟩

end Sys2Proof.Machine

/-! PROOFS. Family 70_reset_and_hazards.md: what reset and the host's other acts leave, the refusal of a run whose inputs
changed, and the tiling of the buffer by decoded records. -/

namespace Sys2Proof.Machine

/-! ### The acts of the host and the invariant -/

/-- The empty buffer is in canonical form. -/
theorem Memory.nil_wf : Memory.wf [] := ⟨.nil, by simp⟩

/-- Settles O33: there is no buffer and no record yet, and the cursor is at LEN = 0. -/
theorem resetMeetsTheInvariant : Obligations.ResetMeetsTheInvariant where
  bufCanonical := Memory.nil_wf
  bufInsideLen _ hc := absurd hc List.not_mem_nil
  cursorInsideLen _ := le_rfl
  recordsWellFormed _ _ hr := absurd hr List.not_mem_nil

/-- The mark of changed inputs is clear exactly when it was clear and no input differs. -/
theorem State.withInputs_unchanged (s : State) (m : Memory) (n : Nat) (p : Params) :
    (s.withInputs m n p).inputsChanged = false ↔
      s.inputsChanged = false ∧ m = s.buf ∧ n = s.len ∧ p = s.params := by
  rw [← Bool.not_eq_true, State.withInputs_inputsChanged]
  simp only [not_or, Bool.not_eq_true, ne_eq, not_not]

/-- New inputs with a canonical buffer inside LEN keep the invariant: what it says of cursor and output is void when an
input differs, and as it was when none does. -/
theorem State.withInputs_inv {s : State} {m : Memory} {n : Nat} (p : Params) (h : s.Inv) (hm : m.wf)
    (hn : ∀ c ∈ m, c.1 < n) : (s.withInputs m n p).Inv where
  bufCanonical := hm
  bufInsideLen := hn
  cursorInsideLen hmark := by
    obtain ⟨hclear, -, rfl, -⟩ := (s.withInputs_unchanged m n p).1 hmark
    exact h.cursorInsideLen hclear
  recordsWellFormed hmark := by
    obtain ⟨hclear, -, rfl, -⟩ := (s.withInputs_unchanged m n p).1 hmark
    exact h.recordsWellFormed hclear

/-- Reset keeps the invariant: it clears cursor and output and keeps the buffer. -/
theorem State.applyReset_inv {s : State} (h : s.Inv) : s.applyReset.Inv where
  bufCanonical := h.bufCanonical
  bufInsideLen := h.bufInsideLen
  cursorInsideLen _ := Nat.zero_le _
  recordsWellFormed _ _ hr := absurd hr List.not_mem_nil

/-- A presented buffer lies inside its length. -/
theorem Memory.lt_of_mem_writeBytes_nil {bytes : List Byte} {c : Host.Cell} (h : c ∈ Memory.writeBytes [] 0 bytes) :
    c.1 < bytes.length := by
  rcases Memory.mem_writeBytes [] 0 bytes c h with hold | ⟨-, hlt⟩
  · cases hold
  · omega

/-- Settles O34: every act but reset presents inputs whose buffer is canonical and inside LEN
(`State.withInputs_inv`). -/
theorem hostActsKeepTheInvariant : Obligations.HostActsKeepTheInvariant := by
  intro a s h
  cases a with
  | presentBuffer bytes =>
    exact State.withInputs_inv s.params h (Memory.writeBytes_wf [] 0 bytes Memory.nil_wf) fun _ hc =>
      Memory.lt_of_mem_writeBytes_nil hc
  | changeByte a v =>
    rw [hostAct]
    split
    · next ha =>
      refine State.withInputs_inv s.params h (Memory.write_wf s.buf a v h.bufCanonical) fun c hc => ?_
      rcases Memory.mem_write s.buf a v c hc with hold | ⟨rfl, -⟩
      · exact h.bufInsideLen c hold
      · exact ha
    · exact h
  | changeLen n =>
    exact State.withInputs_inv s.params h (Memory.below_wf s.buf n h.bufCanonical) fun c hc =>
      of_decide_eq_true (List.mem_filter.1 hc).2
  | fixParams p => exact State.withInputs_inv p h h.bufCanonical h.bufInsideLen
  | reset => exact State.applyReset_inv h

/-! ### The start of a run -/

/-- Settles O36: the walk of no step ends where it starts, at address 0. -/
theorem resetStartsTheWalk : Obligations.ResetStartsTheWalk :=
  ⟨⟨rfl, rfl, rfl⟩, fun _ => ⟨rfl, rfl, rfl⟩⟩

/-- Settles O40: the state after reset is runnable under legal parameters, so it is refused as Terminal at LEN = 0
(`terminalStepIsRefused`) and else emits the record of the pseudocode at the cursor, 0. -/
theorem resetLeavesTheStartOfARun : Obligations.ResetLeavesTheStartOfARun := by
  intro s
  refine ⟨rfl, rfl, rfl, rfl, rfl, rfl, (done_iff _).trans Nat.le_zero, fun hlegal h0 => ?_, fun hlegal h0 => ?_⟩
  · exact terminalStepIsRefused s.applyReset ⟨rfl, hlegal⟩ h0.le
  · exact stepEmitsTheRecordOfTheSpecsDecode s.applyReset ⟨rfl, hlegal⟩ (Nat.pos_of_ne_zero h0)

/-- Settles O41: the buffer is the bytes stored from address 0 on in an empty one, which read back
(`Memory.read_writeBytes`). -/
theorem bootPresentsTheBuffer : Obligations.BootPresentsTheBuffer := by
  intro bytes p s
  refine ⟨fun a => ?_, rfl, rfl, rfl, rfl, fun hlegal => ⟨rfl, hlegal⟩⟩
  have hbuf : (s.boot bytes p).buf = Memory.writeBytes [] 0 bytes := rfl
  have hlen : (s.boot bytes p).len = bytes.length := rfl
  by_cases ha : a < bytes.length
  · rw [bufRd_of_lt (hlen ▸ ha), hbuf, Memory.read_writeBytes [] 0 a bytes Memory.nil_wf, if_pos (by omega)]
    simp [ha]
  · rw [bufRd_eq_none (by omega), List.getElem?_eq_none (by omega)]

/-! ### Changed inputs -/

/-- Presenting the inputs already there changes nothing (log entry 7). -/
theorem State.withInputs_self (s : State) : s.withInputs s.buf s.len s.params = s := by
  simp [State.withInputs]

/-- Every act of the host but reset is a presenting of inputs. -/
theorem hostAct_eq_withInputs {a : HostAction} (ha : a ≠ .reset) (s : State) :
    ∃ m n p, hostAct a s = s.withInputs m n p := by
  cases a with
  | presentBuffer bytes => exact ⟨_, _, _, rfl⟩
  | changeByte a v =>
    rw [hostAct]
    split
    · exact ⟨_, _, _, rfl⟩
    · exact ⟨_, _, _, s.withInputs_self.symm⟩
  | changeLen n => exact ⟨_, _, _, rfl⟩
  | fixParams p => exact ⟨_, _, _, rfl⟩
  | reset => exact absurd rfl ha

/-- An act of the host that is no reset marks the run exactly when the run was marked or an input differs after it
(70_reset_and_hazards.md R221, R226). -/
theorem hostAct_inputsChanged {a : HostAction} (ha : a ≠ .reset) (s : State) :
    (hostAct a s).inputsChanged = true ↔ s.inputsChanged = true ∨
      (hostAct a s).buf ≠ s.buf ∨ (hostAct a s).len ≠ s.len ∨ (hostAct a s).params ≠ s.params := by
  obtain ⟨m, n, p, h⟩ := hostAct_eq_withInputs ha s
  rw [h]
  exact s.withInputs_inputsChanged m n p

/-- No act of the host but reset clears the mark of changed inputs (log entry 7). -/
theorem foldl_hostAct_inputsChanged {more : List HostAction} (hmore : .reset ∉ more) {s : State}
    (h : s.inputsChanged = true) : (more.foldl (fun u b => hostAct b u) s).inputsChanged = true := by
  induction more generalizing s with
  | nil => exact h
  | cons b more ih =>
    obtain ⟨hb, hrest⟩ := not_or.1 (mt List.mem_cons.2 hmore)
    exact ih hrest ((hostAct_inputsChanged (Ne.symm hb) s).2 (.inl h))

/-- A marked run is refused, whatever else holds of it (log entry 9). -/
theorem step_of_inputsChanged {s : State} (h : s.inputsChanged = true) : step s = .refused .inputsChanged := by
  rw [step, State.refusal?, if_pos h]

/-- Settles O42: the act sets the mark (`hostAct_inputsChanged`) and no further act clears it
(`foldl_hostAct_inputsChanged`). -/
theorem changedInputsAreRefusedUntilReset : Obligations.ChangedInputsAreRefusedUntilReset :=
  fun s _ _ ha hmore hdiff =>
    ⟨step_of_inputsChanged (foldl_hostAct_inputsChanged hmore ((hostAct_inputsChanged ha s).2 (.inr hdiff))), rfl⟩

/-! ### A table word placed at the cursor -/

/-- A number fits in its bit length. -/
theorem lt_two_pow_bitLength (n : Nat) : n < 2 ^ bitLength n := by
  rw [bitLength]
  split
  · next h => simp [h]
  · exact Nat.lt_log2_self

@[simp] theorem bytesLE_length (n v : Nat) : (bytesLE n v).length = n := by
  induction n generalizing v with
  | zero => rfl
  | succ n ih => rw [bytesLE, List.length_cons, ih]

@[simp] theorem tableWordBytes_length (nbits w : Nat) : (tableWordBytes nbits w).length = maxInstrBytes :=
  bytesLE_length _ _

/-- A table word decodes to an instruction exactly when the decoder reads it from the word's bytes. -/
theorem decodeTableWord_eq_some (nbits w : Nat) (i : Instr) :
    decodeTableWord nbits w = some i ↔ ∃ rest, decode (tableWordBytes nbits w) = .instr i rest := by
  rw [decodeTableWord]
  cases decode (tableWordBytes nbits w) <;> simp

/-- Placing bytes widens the cursor register for LEN, so fallbacks of at least 1 make a run with a meaning (log
entry 2). -/
theorem State.placeAtCursor_runnable {s : State} (bs : List Byte) (hunrec : 1 ≤ s.params.fallbackUnrecognized)
    (hunsup : 1 ≤ s.params.fallbackUnsupported) : (s.placeAtCursor bs).Runnable := by
  have hfits : (s.placeAtCursor bs).len < 2 ^ (s.placeAtCursor bs).params.cursorBits :=
    (lt_two_pow_bitLength _).trans_le (Nat.pow_le_pow_right Nat.two_pos (Nat.le_max_right _ _))
  refine ⟨rfl, ?_⟩
  simp only [Params.legalFor, Bool.and_eq_true, decide_eq_true_eq]
  exact ⟨⟨hunrec, hunsup⟩, hfits⟩

/-- The next fetch reads the bytes of the placed word. -/
theorem fetch_withFetchWord (s : State) (nbits w : Nat) (hbuf : s.buf.wf) :
    (s.withFetchWord nbits w).fetch = tableWordBytes nbits w := by
  have hlen := tableWordBytes_length nbits w
  have hwindow : min maxInstrBytes (max s.len (s.cursor + maxInstrBytes) - s.cursor) = maxInstrBytes := by omega
  rw [State.withFetchWord, State.fetch, State.placeAtCursor_buf, State.placeAtCursor_cursor,
    State.placeAtCursor_len, hlen, hwindow, Memory.bytesFrom_writeBytes _ _ _ _ hbuf hlen.ge,
    List.take_of_length_le hlen.le]

/-- Settles O43: the state with the word placed is runnable and scanning, and its fetch is the word's bytes
(`fetch_withFetchWord`). -/
theorem placedWordRunsNext : Obligations.PlacedWordRunsNext := by
  intro s nbits w i hbuf hunrec hunsup hword
  obtain ⟨rest, hdec⟩ := (decodeTableWord_eq_some nbits w i).1 hword
  have hscan : (s.withFetchWord nbits w).Scanning := by
    rw [State.Scanning, State.withFetchWord, State.placeAtCursor_cursor, State.placeAtCursor_len,
      tableWordBytes_length, maxInstrBytes]
    omega
  refine stepRunsTheDecodedInstruction _ i rest (State.placeAtCursor_runnable _ hunrec hunsup) hscan ?_
  rw [fetch_withFetchWord s nbits w hbuf, hdec]

/-! ### Decoded records tile the buffer -/

/-- After a decoded record the walk goes on at the instruction's end (70_reset_and_hazards.md R222): a decoded
instruction lies below LEN, so the clamp does not cut its length. -/
theorem nextCursor_of_refDecode_decoded {s : State} {p : Nat} {d : DecodedInstruction} (hp : p < s.len)
    (h : refDecode s p = .decoded d) : nextCursor s.params s.len p (.decoded d) = p + d.totalLength := by
  have hrec : stepRecord { s with cursor := p } = .decoded d :=
    (stepRecord_eq_refDecode { s with cursor := p } hp).trans h
  exact Nat.min_eq_left (totalLength_le_of_stepRecord { s with cursor := p } d hp hrec)

/-- A record of a walk that only Decoded records precede starts the sum of their lengths after the walk's start. -/
theorem recordStarts_getElem?_of_decoded {s : State} {p q : Nat} {rs : List StepRecord} (h : isWalk s p rs q) (k : Nat)
    (hk : k < rs.length) (hdec : ∀ r ∈ rs.take k, ∃ d, r = .decoded d) :
    (recordStarts s.params s.len p rs)[k]? = some (p + ((rs.take k).map recordLength).sum) := by
  induction rs generalizing p k with
  | nil => cases hk
  | cons r rs ih =>
    obtain ⟨hp, hr, hrest⟩ := h
    cases k with
    | zero => rfl
    | succ k =>
      rw [List.take_succ_cons] at hdec ⊢
      obtain ⟨⟨d, rfl⟩, htail⟩ := List.forall_mem_cons.1 hdec
      have hnext := nextCursor_of_refDecode_decoded hp hr.symm
      rw [hnext] at hrest
      rw [recordStarts, List.getElem?_cons_succ, hnext, ih hrest k (Nat.lt_of_succ_lt_succ hk) htail,
        List.map_cons, List.sum_cons, recordLength, Nat.add_assoc]

/-- Settles O38: the output is a walk from address 0 (`recordStarts_getElem?_of_decoded`). -/
theorem decodedRecordsTileTheBuffer : Obligations.DecodedRecordsTileTheBuffer := by
  intro s k hwalk hk hdec
  rw [recordStarts_getElem?_of_decoded hwalk k hk hdec, Nat.zero_add]

end Sys2Proof.Machine
